-- ==== Sys2Proof/Word.lean ====
section
/-! DEFINITION. The bit vectors of the spec: a binary16 pattern, a binary32 pattern and the 33-bit
transaction word (00_scope.md R6, 30_encoding.md R40). Bit 0 is the least significant bit (R8). -/

namespace Sys2Proof

/-- A binary16 pattern `h` (30_encoding.md R34). -/
abbrev Half := BitVec 16

/-- A binary32 pattern `a` (30_encoding.md R36). -/
abbrev Single := BitVec 32

/-- The transaction word `t = {op, din}` (30_encoding.md R40): bit 32 is `op`, bits 31..0 are `din`. -/
abbrev TWord := BitVec 33

end Sys2Proof
end

