-- ==== Sys2Proof/Syntax.lean ====
section
/-! DEFINITION. The instructions: one constructor per row of spec/opcode_table.json (30_encoding.md
R44), and the assembler's names for them (R47). -/

namespace Sys2Proof

/-- A transaction of `half_float_codec` (R40, R44). -/
inductive Instr where
  /-- `F32TOF16` (R80): encode the binary32 pattern `a = din[31:0]`. -/
  | f32tof16 (a : Single)
  /-- `F16TOF32` (R62): decode the binary16 pattern `h = din[15:0]`. `x = din[31:16]` is ignored
  (R45); it is kept so that no bit of a word is lost (DESIGN CHOICE, log 5). -/
  | f16tof32 (x : BitVec 16) (h : Half)
deriving DecidableEq, Repr

/-- The `op` a transaction presents (R44). -/
def Instr.op : Instr → BitVec 1
  | .f32tof16 _ => 0#1
  | .f16tof32 _ _ => 1#1

/-- The `din` a transaction presents (R41, R42). -/
def Instr.din : Instr → BitVec 32
  | .f32tof16 a => a
  | .f16tof32 x h => x ++ h

/-- The mnemonics and the aliases of R47. -/
inductive Mnemonic where
  | f32tof16 | enc | demote | f16tof32 | dec | promote
deriving DecidableEq, Repr

/-- A line of R47 less its destination, which is a host variable and no part of the word. -/
structure AsmLine where
  mnemonic : Mnemonic
  src : Nat
deriving DecidableEq, Repr

end Sys2Proof
end

