-- ==== Sys2Proof/WellFormed.lean ====
section
/-! DEFINITION. Well-formedness. Every transaction is well formed (30_encoding.md R45), so the check on
`Instr` is empty; a number is a transaction word when it has 33 bits (R46), and an assembler line is
well formed when its literal has its operand's width (R47). -/

namespace Sys2Proof

/-- No transaction is illegal or reserved (R45). -/
def Instr.wellFormed : Instr → Bool
  | .f32tof16 _ => true
  | .f16tof32 _ _ => true

/-- A number is a transaction word when it fits the one length, 33 bits (R46). -/
def wordFits (w : Nat) : Bool := w < 2 ^ 33

/-- The width of a mnemonic's `src` (R47). -/
def Mnemonic.srcWidth : Mnemonic → Nat
  | .f32tof16 | .enc | .demote => 32
  | .f16tof32 | .dec | .promote => 16

/-- A line's literal has the width R47 gives its operand; R47 says nothing of a wider one (DESIGN CHOICE, log
16). -/
def AsmLine.wellFormed (l : AsmLine) : Bool := l.src < 2 ^ l.mnemonic.srcWidth

end Sys2Proof
end

