-- ==== Sys2Proof/Decode.lean ====
section
/-! DEFINITION. Decoding of the 33-bit transaction word (30_encoding.md R40 to R46), the encoder, and
the assembler of R47. The block splits no value into bytes (20_memory.md R24), so the decoder reads
the word itself. -/

namespace Sys2Proof

/-- Why a number is no transaction. -/
inductive DecodeError where
  /-- The number has more than the 33 bits of the one format (R46). Safe: no such word exists. -/
  | notThirtyThreeBits
deriving DecidableEq, Repr

/-- Join the ports `op` and `din` to the word `{op, din}` (R40). -/
def wordOf (op : BitVec 1) (din : BitVec 32) : TWord := op ++ din

/-- `op = t[32]` (R40). -/
def wordOp (t : TWord) : BitVec 1 := t.extractLsb' 32 1

/-- `din = t[31:0]` (R40). -/
def wordDin (t : TWord) : BitVec 32 := t.extractLsb' 0 32

/-- The transaction a word selects: a decoder needs only `t[32]` (R44). Total, since no word is illegal
(R45). -/
def decode (t : TWord) : Instr :=
  if wordOp t = 0#1 then .f32tof16 (wordDin t)
  else .f16tof32 ((wordDin t).extractLsb' 16 16) ((wordDin t).extractLsb' 0 16)

/-- The decoder on a number, which rejects by name what is not 33 bits wide (R46; log 15). -/
def decodeNat (w : Nat) : Except DecodeError Instr :=
  if wordFits w then .ok (decode (BitVec.ofNat 33 w)) else .error .notThirtyThreeBits

/-- The word of a transaction: `{op, din}` (R40). -/
def encode : Instr → TWord
  | .f32tof16 a => (0#1 ++ a : BitVec 33)
  | .f16tof32 x h => (1#1 ++ (x ++ h) : BitVec 33)

/-- The host's numbering is the table's: bit 32 of `w` is `op` and bits 31..0 are `din`. The format has
one length, so `nbits` adds nothing, and a `w` of more than 33 bits gives no transaction (log 15). -/
def decodeTableWord (_nbits w : Nat) : Option Instr :=
  match decodeNat w with
  | .ok i => some i
  | .error _ => none

/-- The mask of both rows of the operation map (R44). -/
def rowMask : TWord := 0x100000000#33

/-- The match of a transaction's row (R44). -/
def rowMatch : Instr → TWord
  | .f32tof16 _ => 0x000000000#33
  | .f16tof32 _ _ => 0x100000000#33

/-- The `op` of a mnemonic or alias (R44, R47). -/
def Mnemonic.op : Mnemonic → BitVec 1
  | .f32tof16 | .enc | .demote => 0#1
  | .f16tof32 | .dec | .promote => 1#1

/-- The word of an assembler line, `{op, din}` with `din[31:16] = 0` for a 16-bit source (R47); none if
its literal is too wide for its operand (DESIGN CHOICE, log 16). -/
def assemble (l : AsmLine) : Option TWord :=
  if l.wellFormed then some (wordOf l.mnemonic.op (BitVec.ofNat 32 l.src)) else none

end Sys2Proof
end

