-- ==== Sys2Proof/Config.lean ====
section
/-! DEFINITION. What an implementation fixes (00_scope.md R7) and the free values of the window in
which a pipelined implementation's outputs are unspecified (70_reset_and_hazards.md R97). -/

namespace Sys2Proof

/-- The three named parameters of 00_scope.md R7, which the model takes as an argument. This
hardware's values are `Params.hardware` (Machine/Codec.lean). -/
structure Params where
  /-- `ENC_NAN_MANT`: the significand produced when a binary32 NaN is encoded (R7(a)). -/
  encNanMant : BitVec 23 → BitVec 10
  /-- `DEC_NAN_BITS`: the pattern produced when a binary16 NaN is decoded (R7(b)). -/
  decNanBits : BitVec 1 → BitVec 10 → Single
  /-- `CODEC_LATENCY`: clock edges between an input and the output it determines (R7(c)). -/
  latency : Nat

/-- The law of `ENC_NAN_MANT` (R7(a)): the result is nonzero. -/
def Params.EncNanLaw (p : Params) : Prop := ∀ m, p.encNanMant m ≠ 0#10

/-- The law of `DEC_NAN_BITS` (R7(b)): bits 30:23 are 0xFF, bits 22:0 are not 0, bit 31 is `s`. -/
def Params.DecNanLaw (p : Params) : Prop :=
  ∀ s m, (p.decNanBits s m).extractLsb' 23 8 = 0xFF#8 ∧
    (p.decNanBits s m).extractLsb' 0 23 ≠ 0#23 ∧ (p.decNanBits s m).extractLsb' 31 1 = s

/-- Everything a model may assume of an admitted implementation's parameters (R7). -/
structure Params.Lawful (p : Params) : Prop where
  encNan : p.EncNanLaw
  decNan : p.DecNanLaw

/-- FREE VALUE (log 9): what `dout` shows at the `n`-th cycle of a codec in which it is unspecified
(R97; 93_implementation_defined.md I4). It depends on the
index `n` and on nothing else, so windows that draw the same index agree (DESIGN CHOICE, log 9). No body:
no value of it can be proved. -/
opaque Config.freeDout : Nat → BitVec 32

/-- FREE VALUE (log 9): the same for `f16_out` of the stand-alone encoder. -/
opaque Config.freeF16Out : Nat → BitVec 16

/-- FREE VALUE (log 9): the same for `f32_out` of the stand-alone decoder. -/
opaque Config.freeF32Out : Nat → BitVec 32

end Sys2Proof
end

