-- ==== Sys2Proof/Machine/Operands.lean ====
section
/-! DEFINITION. How operands are taken apart and results put together (30_encoding.md R34, R36, R41,
R42, R43; 41_fp16_to_fp32.md R59; 42_fp32_to_fp16.md R76). The binary32 bit positions are the standard
layout: PRESUMED, as R36 says (log 14). -/

namespace Sys2Proof.Machine

/-- `s = a[31]` (R41). -/
def sign32 (a : Single) : BitVec 1 := a.extractLsb' 31 1
/-- `e32 = a[30:23]` (R41). -/
def exp32 (a : Single) : BitVec 8 := a.extractLsb' 23 8
/-- `m32 = a[22:0]` (R41). -/
def mant32 (a : Single) : BitVec 23 := a.extractLsb' 0 23
/-- `s = h[15]` (R42). -/
def sign16 (h : Half) : BitVec 1 := h.extractLsb' 15 1
/-- `e16 = h[14:10]` (R42). -/
def exp16 (h : Half) : BitVec 5 := h.extractLsb' 10 5
/-- `m16 = h[9:0]` (R42). -/
def mant16 (h : Half) : BitVec 10 := h.extractLsb' 0 10

/-- `u = e32 - 127`, a signed integer in -127..128 (R41). -/
def unbiased32 (a : Single) : Int := (exp32 a).toNat - 127

/-- `{s, e32, m32}` (R59). -/
def compose32 (s : BitVec 1) (e : BitVec 8) (m : BitVec 23) : Single := (s ++ e ++ m : BitVec 32)
/-- `{s, e16, m16}` (R76). -/
def compose16 (s : BitVec 1) (e : BitVec 5) (m : BitVec 10) : Half := (s ++ e ++ m : BitVec 16)
/-- `{s, v}` with exponent and significand as the one 15-bit value `v` (R64). -/
def composeMag16 (s : BitVec 1) (v : BitVec 15) : Half := (s ++ v : BitVec 16)

/-- `din[15:0]`, the operand of `F16TOF32`: `din[31:16]` is ignored (R42, R45). -/
def halfOperand (din : BitVec 32) : Half := din.extractLsb' 0 16

/-- `zext_32` of a binary16 result (R43). -/
def halfResult (h : Half) : BitVec 32 := h.setWidth 32

end Sys2Proof.Machine
end

