-- ==== Sys2Proof/Machine/State.lean ====
section
/-! DEFINITION. The state: the ports of `half_float_codec` and of the two stand-alone converters
(10_state.md R18 to R20) and the pipeline registers of an implementation with `CODEC_LATENCY > 0`
(70_reset_and_hazards.md R96, R97). The block itself holds no architectural state (R13): at latency 0 the inputs the host drives determine
all of State (`HardwareInv`, log 1). -/

namespace Sys2Proof.Machine

/-- The input ports of `half_float_codec` (R20), which travel down a pipeline together (R96). -/
structure CodecIn where
  /-- Operation select: 0 is `F32TOF16`, 1 is `F16TOF32`. -/
  op : BitVec 1
  /-- The operand bus. -/
  din : BitVec 32
deriving DecidableEq, Repr

/-- One block with inputs of type `ι` and an output of type `ο`. -/
structure Block (ι ο : Type) where
  /-- The value the host drives on the input ports now. -/
  input : ι
  /-- The value on the output port. At latency 0 it is the function of `input` (R17), to which every
  operation that changes `input` sets it (log 1). -/
  output : ο
  /-- Inputs sampled and not yet delivered, newest first: at most `CODEC_LATENCY` of them. That the
  registers hold the sampled inputs is the model's choice (R96 leaves it open; log 8). -/
  pipe : List ι
  /-- Rising edges since power-up or reset: the next edge is edge number `edge` (R97). It stays where
  it is at latency 0, which has no clock (log 11). -/
  edge : Nat
  /-- The model's own counter: the index of the next free value (log 9). -/
  draws : Nat
deriving DecidableEq, Repr

/-- The machine: one codec and one of each stand-alone converter, sharing nothing (R33; log 7). -/
structure State where
  /-- `half_float_codec`: inputs `op` and `din`, output `dout` (R20). -/
  codec : Block CodecIn (BitVec 32)
  /-- The stand-alone `fp32_to_fp16_converter`: input `f32_in`, output `f16_out` (R18). -/
  encoder : Block (BitVec 32) (BitVec 16)
  /-- The stand-alone `fp16_to_fp32_converter`: input `f16_in`, output `f32_out` (R19). -/
  decoder : Block (BitVec 16) (BitVec 32)
deriving DecidableEq, Repr

/-- The port `op` (R20). -/
def State.op (s : State) : BitVec 1 := s.codec.input.op
/-- The port `din` (R20). -/
def State.din (s : State) : BitVec 32 := s.codec.input.din
/-- The port `dout` (R20). -/
def State.dout (s : State) : BitVec 32 := s.codec.output
/-- The port `f32_in` of the stand-alone encoder (R18). -/
def State.f32In (s : State) : BitVec 32 := s.encoder.input
/-- The port `f16_out` of the stand-alone encoder (R18). -/
def State.f16Out (s : State) : BitVec 16 := s.encoder.output
/-- The port `f16_in` of the stand-alone decoder (R19). -/
def State.f16In (s : State) : BitVec 16 := s.decoder.input
/-- The port `f32_out` of the stand-alone decoder (R19). -/
def State.f32Out (s : State) : BitVec 32 := s.decoder.output

/-- Why a host action on the machine is stuck. No instruction raises one (60_exceptions.md R82). -/
inductive Fault where
  /-- Raised by `Block.read` when the host reads the result of the transaction of edge `n` before edge
  `n + L` has passed, at `CODEC_LATENCY = L > 0` (R99; 93_implementation_defined.md I5: stuck).
  Safe: the hardware shows some other value there. -/
  | earlyRead
deriving DecidableEq, Repr

/-- What the model gives no meaning to. No instruction answers with one (40_half_float_codec.md R52). -/
inductive Refusal where
  /-- An instruction the model has no meaning for yet; no arm of `exec` uses it. -/
  | notModelled (mnemonic : String)
  /-- Raised by `driveLevels` for an input wire that is undriven or unknown (R21;
  93_implementation_defined.md I6: refuse). Safe: the model goes nowhere. -/
  | unknownInput
deriving DecidableEq, Repr

/-- The machine at power-up with every input driven to 0 (DESIGN CHOICE, log 2). The outputs are valid at
once (R23): `ENC` and `DEC` of a zero are a zero. The pipeline of latency 0 is empty (R95). -/
def State.reset : State where
  codec := { input := { op := 0#1, din := 0#32 }, output := 0#32, pipe := [], edge := 0, draws := 0 }
  encoder := { input := 0#32, output := 0#16, pipe := [], edge := 0, draws := 0 }
  decoder := { input := 0#16, output := 0#32, pipe := [], edge := 0, draws := 0 }

end Sys2Proof.Machine
end

