-- ==== Sys2Proof/Machine/Ops.lean ====
section
/-! DEFINITION. The shared operations: the leading-one index of 00_scope.md R9 and one transaction of a
block. A block has no memory (20_memory.md R25), no flag (10_state.md R16) and takes no exception
(60_exceptions.md R82, R85), so there is no operation for those. -/

namespace Sys2Proof.Machine

/-- The highest set bit below bit `n`, and 0 where there is none. -/
def msbBelow {w : Nat} (v : BitVec w) : Nat → Nat
  | 0 => 0
  | n + 1 => if v.getLsbD n then n else msbBelow v n

/-- `msb_index(v)` (R9): the index of the most significant set bit of a nonzero `v`. -/
def msbIndex {w : Nat} (v : BitVec w) : Nat := msbBelow v w

/-- The number of the next edge: latency 0 has no clock and counts none (R95, R97; log 11). -/
def nextEdge (L edge : Nat) : Nat := if L = 0 then edge else edge + 1

/-- One transaction on the inputs now driven. At latency 0 it is the combinational evaluation
(10_state.md R17). At latency `L > 0` it is one rising clock edge, edge `n`: the input is sampled, and
the output after it is the function `f` of the input of edge `n - L` (70_reset_and_hazards.md R96;
the pipeline as a list of samples is log 8). Where there is no such edge the output is unspecified: a free value (R97; log 9). -/
def Block.clock {ι ο : Type} (L : Nat) (f : ι → ο) (free : Nat → ο) (b : Block ι ο) : Block ι ο :=
  match (b.input :: b.pipe)[L]? with
  | some x =>
    { b with output := f x, pipe := (b.input :: b.pipe).take L, edge := nextEdge L b.edge }
  | none =>
    { b with
      output := free b.draws, pipe := (b.input :: b.pipe).take L, edge := nextEdge L b.edge,
      draws := b.draws + 1 }

/-- The host changes the inputs (40_half_float_codec.md R51). At latency 0 the output follows (R17); otherwise it waits for an
edge (R96). -/
def Block.drive {ι ο : Type} (L : Nat) (f : ι → ο) (b : Block ι ο) (x : ι) : Block ι ο :=
  { b with input := x, output := if L = 0 then f x else b.output }

/-- Present `x` on the inputs and run one transaction (R17). -/
def Block.transact {ι ο : Type} (L : Nat) (f : ι → ο) (free : Nat → ο) (b : Block ι ο) (x : ι) :
    Block ι ο :=
  Block.clock L f free { b with input := x }

/-- Present the inputs of a list one after another, one transaction each: one may start at every edge
(R96). -/
def Block.feed {ι ο : Type} (L : Nat) (f : ι → ο) (free : Nat → ο) (b : Block ι ο) (xs : List ι) :
    Block ι ο :=
  xs.foldl (Block.transact L f free) b

end Sys2Proof.Machine
end

