-- ==== Sys2Proof/Machine/Fp16ToFp32.lean ====
section
/-! DEFINITION. `fp16_to_fp32_converter` (decode, promote): the function `DEC` of 41_fp16_to_fp32.md. -/

namespace Sys2Proof.Machine

/-- The subnormal case (R57): the leading 1 at bit `p` of `m16` becomes the implicit bit. -/
def decSubnormal (s : BitVec 1) (m16 : BitVec 10) : Single :=
  let p := msbIndex m16
  let k := 10 - p
  compose32 s (BitVec.ofNat 8 (103 + p)) (m16 <<< k ++ 0#13)

/-- The normal case (R58): the exponent is rebiased and the significand left-justified. -/
def decNormal (s : BitVec 1) (e16 : BitVec 5) (m16 : BitVec 10) : Single :=
  compose32 s (e16.setWidth 8 + 112#8) (m16 ++ 0#13)

/-- `DEC` (R53), its tests in the rule's order. -/
def dec (p : Params) (h : Half) : Single :=
  let s := sign16 h
  let e16 := exp16 h
  let m16 := mant16 h
  if e16 = 31#5 ∧ m16 = 0#10 then compose32 s 0xFF#8 0#23
  else if e16 = 31#5 then p.decNanBits s m16
  else if e16 = 0#5 ∧ m16 = 0#10 then compose32 s 0#8 0#23
  else if e16 = 0#5 then decSubnormal s m16
  else decNormal s e16 m16

/-- This hardware's `DEC_NAN_BITS`: `(s << 31) | 0x7FC00000` (00_scope.md R7(b), R55). -/
def decNanBitsDefault (s : BitVec 1) (_m16 : BitVec 10) : Single :=
  s.setWidth 32 <<< 31 ||| 0x7FC00000#32

end Sys2Proof.Machine
end

