-- ==== Sys2Proof/Machine/Flags.lean ====
section
/-! DEFINITION. The block has no status flags (10_state.md R16). What stands here are the three named
bits that decide rounding to nearest, ties to even (00_scope.md R10, 42_fp32_to_fp16.md R66). -/

namespace Sys2Proof.Machine

/-- Whether a right shift by `k` rounds up: `round` is the most significant discarded bit and `sticky`
the OR of the other discarded bits, of the `k` low bits of `v` (R10). -/
def roundBit {w : Nat} (v : BitVec w) (k : Nat) : Bool := v.getLsbD (k - 1)

/-- `sticky`: the field below the round bit is nonzero (R10). -/
def stickyBit {w : Nat} (v : BitVec w) (k : Nat) : Bool := v.toNat % 2 ^ (k - 1) != 0

/-- The kept value, incremented exactly when `round = 1 and (sticky = 1 or lsb = 1)` (R66). The carry is
that of the one binary addition. -/
def roundKept {w : Nat} (kept : BitVec w) (round sticky : Bool) : BitVec w :=
  if round && (sticky || kept.getLsbD 0) then kept + 1#w else kept

end Sys2Proof.Machine
end

