-- ==== Sys2Proof/Machine/Fp32ToFp16.lean ====
section
/-! DEFINITION. `fp32_to_fp16_converter` (encode, demote): the function `ENC` of 42_fp32_to_fp16.md, with
the corrections of 90_conflicts.md C1 to C3 that its rules carry. -/

namespace Sys2Proof.Machine

/-- The normal path (R70, R71): 13 significand bits are dropped, and a carry runs into the exponent. -/
def encNormal (s : BitVec 1) (e32 : BitVec 8) (m32 : BitVec 23) : Half :=
  let v : BitVec 15 := (e32 - 112#8).extractLsb' 0 5 ++ m32.extractLsb' 13 10
  composeMag16 s (roundKept v (roundBit m32 13) (stickyBit m32 13))

/-- The subnormal path (R72, R73): the significand with its implicit bit is shifted right by
`k = 126 - e32` places. -/
def encSubnormal (s : BitVec 1) (e32 : BitVec 8) (m32 : BitVec 23) : Half :=
  let M : BitVec 24 := 1#1 ++ m32
  let k := 126 - e32.toNat
  let q : BitVec 15 := (M >>> k).setWidth 15
  composeMag16 s (roundKept q (roundBit M k) (stickyBit M k))

/-- `ENC` (R64), its tests in the rule's order. -/
def enc (p : Params) (a : Single) : Half :=
  let s := sign32 a
  let e32 := exp32 a
  let m32 := mant32 a
  if e32 = 255#8 ∧ m32 ≠ 0#23 then compose16 s 31#5 (p.encNanMant m32)
  else if e32 = 255#8 then compose16 s 31#5 0#10
  else if 143#8 ≤ e32 then compose16 s 31#5 0#10
  else if 113#8 ≤ e32 then encNormal s e32 m32
  else if 102#8 ≤ e32 then encSubnormal s e32 m32
  else composeMag16 s 0#15

/-- This hardware's `ENC_NAN_MANT`: `0x200 | m32[22:13]` (00_scope.md R7(a), R67). -/
def encNanMantDefault (m32 : BitVec 23) : BitVec 10 := 0x200#10 ||| m32.extractLsb' 13 10

end Sys2Proof.Machine
end

