-- ==== Sys2Proof/Machine/Codec.lean ====
section
/-! DEFINITION. The top level `half_float_codec` (40_half_float_codec.md R49) and the meanings of its two
transactions, for every admitted implementation (the argument `p`) and for this hardware. -/

namespace Sys2Proof

/-- This hardware's parameters: the defaults of 00_scope.md R7. `CODEC_LATENCY` is 0: combinational (R95). -/
def Params.hardware : Params where
  encNanMant := Machine.encNanMantDefault
  decNanBits := Machine.decNanBitsDefault
  latency := 0

namespace Machine

/-- The result of `F32TOF16`: `zext_32(ENC(din))` (R80). -/
def resultF32tof16 (p : Params) (din : BitVec 32) : BitVec 32 := halfResult (enc p din)

/-- The result of `F16TOF32`: `DEC(din[15:0])` (R62). -/
def resultF16tof32 (p : Params) (din : BitVec 32) : BitVec 32 := dec p (halfOperand din)

/-- `dout` as a function of `(op, din)` (R49): both converters compute, `op` selects (20_memory.md R33). -/
def codecOut (p : Params) (x : CodecIn) : BitVec 32 :=
  let encoded := resultF32tof16 p x.din
  let decoded := resultF16tof32 p x.din
  if x.op = 0#1 then encoded else decoded

/-- The ports a transaction presents (30_encoding.md R40). -/
def inputOf (i : Instr) : CodecIn := { op := i.op, din := i.din }

/-- Present `x` to the codec and run one transaction of it; the other blocks share nothing with it
(20_memory.md R33). -/
def State.transact (p : Params) (x : CodecIn) (s : State) : State :=
  { s with codec := s.codec.transact p.latency (codecOut p) Config.freeDout x }

/-- `F32TOF16` (42_fp32_to_fp16.md R80) under the parameters `p`: `dout <- zext_32(ENC(a))`, at once at
latency 0 and after `L` edges otherwise (70_reset_and_hazards.md R96). It raises nothing (R82). -/
def execF32tof16With (p : Params) (a : Single) (s : State) : Host.Outcome State Fault Refusal :=
  .next (s.transact p { op := 0#1, din := a })

/-- `F16TOF32` (41_fp16_to_fp32.md R62) under the parameters `p`: `dout <- DEC(h)`, whatever `x` is
(30_encoding.md R45). It raises nothing (R82). -/
def execF16tof32With (p : Params) (x : BitVec 16) (h : Half) (s : State) :
    Host.Outcome State Fault Refusal :=
  .next (s.transact p { op := 1#1, din := x ++ h })

/-- A transaction of any admitted implementation. -/
def execWith (p : Params) (i : Instr) (s : State) : Host.Outcome State Fault Refusal :=
  match i with
  | .f32tof16 a => execF32tof16With p a s
  | .f16tof32 x h => execF16tof32With p x h s

/-- `F32TOF16` on this hardware (R80). -/
def execF32tof16 (a : Single) (s : State) : Host.Outcome State Fault Refusal :=
  execF32tof16With Params.hardware a s

/-- `F16TOF32` on this hardware (R62). -/
def execF16tof32 (x : BitVec 16) (h : Half) (s : State) : Host.Outcome State Fault Refusal :=
  execF16tof32With Params.hardware x h s

/-- The transaction word on the ports (30_encoding.md R40). -/
def State.word (s : State) : TWord := wordOf s.op s.din

/-- The host drives the word `t` on `op` and `din` (R40); at latency 0 `dout` follows (10_state.md R17). -/
def State.withWord (p : Params) (t : TWord) (s : State) : State :=
  { s with
    codec := s.codec.drive p.latency (codecOut p) { op := wordOp t, din := wordDin t } }

/-- One transaction of each stand-alone converter on its own input: `f16_out = ENC(f32_in)`
(42_fp32_to_fp16.md R81) and `f32_out = DEC(f16_in)` (41_fp16_to_fp32.md R63). -/
def State.clockConverters (p : Params) (s : State) : State :=
  { s with
    encoder := s.encoder.clock p.latency (enc p) Config.freeF16Out
    decoder := s.decoder.clock p.latency (dec p) Config.freeF32Out }

/-- One step of any admitted implementation: the transaction on the codec's ports, and one of each
stand-alone converter (log 7). At latency `L > 0` it is one rising edge of all three. -/
def stepWith (p : Params) (s : State) : Host.Outcome State Fault Refusal :=
  match execWith p (decode s.word) s with
  | .next t => .next (t.clockConverters p)
  | .fault r => .fault r
  | .refused r => .refused r

end Machine

end Sys2Proof
end

