-- ==== Sys2Proof/Machine/Dispatch.lean ====
section
/-! DEFINITION. The dispatch: one arm per row of spec/opcode_table.json (30_encoding.md R44). -/

namespace Sys2Proof.Machine

def exec (i : Instr) (s : State) : Host.Outcome State Fault Refusal :=
  match i with
  | .f32tof16 a => Sys2Proof.Machine.execF32tof16 a s
  | .f16tof32 x h => Sys2Proof.Machine.execF16tof32 x h s

end Sys2Proof.Machine
end

