-- ==== Sys2Proof/Machine/Step.lean ====
section
/-! DEFINITION. One step of this hardware: the transaction whose word stands on the ports `op` and `din`
(30_encoding.md R40), and the combinational evaluation of the stand-alone converters. -/

namespace Sys2Proof.Machine

/-- One step. The block has no program counter and fetches nothing (10_state.md R14, 20_memory.md R31): the
word is the one the host drives (log 3). -/
def step (s : State) : Host.Outcome State Fault Refusal :=
  match exec (decode s.word) s with
  | .next t => .next (t.clockConverters Params.hardware)
  | .fault r => .fault r
  | .refused r => .refused r

/-- The host drives the word `w` on `op` and `din`, so that the next step runs it; `dout` follows at once
(10_state.md R17; log 3). The one format is 33 bits, so `nbits` adds nothing (30_encoding.md R46; log 15).
DESIGN CHOICE, unsafe (log 17): of a `w` of more than 33 bits, which R46 leaves without a meaning and
`decodeNat` rejects, the low 33 bits are driven, since the ports have no further wire. -/
def State.withFetchWord (s : State) (_nbits w : Nat) : State :=
  s.withWord Params.hardware (BitVec.ofNat 33 w)

end Sys2Proof.Machine
end

