-- ==== Sys2Proof/Machine/HostPort.lean ====
section
/-! DEFINITION. What the host does to a block (40_half_float_codec.md R50, R51): power it up, drive its
inputs, read its output, reset it (70_reset_and_hazards.md R96, R97, R99). -/

namespace Sys2Proof.Machine

/-- A block at power-up with `x` on its inputs. At latency 0 its output is valid at once (10_state.md
R23); otherwise nothing has been sampled and the output is unspecified (R97). The free values of the
window start at the index `d`. DESIGN CHOICE (log 9): R97 leaves open whether the windows of two
power-ups show the same outputs, of one implementation or of two, under the same inputs or others; here
they do where their draws have the same index and need not otherwise, so `d` is left to whoever powers
the block up. -/
def Block.powerUp {ι ο : Type} (L : Nat) (f : ι → ο) (free : Nat → ο) (d : Nat) (x : ι) : Block ι ο :=
  if L = 0 then { input := x, output := f x, pipe := [], edge := 0, draws := 0 }
  else { input := x, output := free d, pipe := [], edge := 0, draws := d + 1 }

/-- A reset pulse. Latency 0 has no reset input and nothing to reset (R93). Otherwise the next edge is
edge 0 again and the output is unspecified until the cycle after edge `L` (R97; log 12), a free
value of the next index (log 9). -/
def Block.resetPulse {ι ο : Type} (L : Nat) (free : Nat → ο) (b : Block ι ο) : Block ι ο :=
  if L = 0 then b
  else { b with output := free b.draws, pipe := [], edge := 0, draws := b.draws + 1 }

/-- The host reads the result of the transaction sampled at edge `n`. At latency 0 the output is the
function of the value now on the input (R17) and nothing is held back (R98). Otherwise the host must not
read before edge `n + L` has passed (R99): stuck (93_implementation_defined.md I5; log 10). -/
def Block.read {ι ο : Type} (L : Nat) (f : ι → ο) (n : Nat) (b : Block ι ο) :
    Host.Outcome ο Fault Refusal :=
  if L = 0 then .next (f b.input)
  else if b.edge ≤ n + L then .fault .earlyRead
  else .next b.output

/-- The machine of any admitted implementation at power-up, with the given values on its inputs, the free
values of its three windows starting at `d` (log 9). -/
def State.powerUp (p : Params) (d : Nat) (x : CodecIn) (a : Single) (h : Half) : State where
  codec := Block.powerUp p.latency (codecOut p) Config.freeDout d x
  encoder := Block.powerUp p.latency (enc p) Config.freeF16Out d a
  decoder := Block.powerUp p.latency (dec p) Config.freeF32Out d h

/-- A reset pulse to all three blocks (R97). -/
def State.resetPulse (p : Params) (s : State) : State where
  codec := s.codec.resetPulse p.latency Config.freeDout
  encoder := s.encoder.resetPulse p.latency Config.freeF16Out
  decoder := s.decoder.resetPulse p.latency Config.freeF32Out

/-- The host changes every input (R51). -/
def State.drive (p : Params) (x : CodecIn) (a : Single) (h : Half) (s : State) : State where
  codec := s.codec.drive p.latency (codecOut p) x
  encoder := s.encoder.drive p.latency (enc p) a
  decoder := s.decoder.drive p.latency (dec p) h

/-- What a wire can carry before it is known to be a two-valued bit (R21). -/
inductive Level where
  | low | high | unknown | undriven
deriving DecidableEq, Repr

/-- The bit of a driven, known wire. -/
def Level.bit : Level → Option Bool
  | .low => some false
  | .high => some true
  | .unknown => none
  | .undriven => none

/-- The number on wires listed from bit 0 upward, if every one of them is two-valued (R21). -/
def levelsToNat : List Level → Option Nat
  | [] => some 0
  | l :: ls =>
    match l.bit, levelsToNat ls with
    | some b, some n => some (b.toNat + 2 * n)
    | _, _ => none

/-- The host drives the 33 input wires of the codec, bit 0 of `din` first and `op` last. A wire at X or Z
has no meaning and is refused (R21; 93_implementation_defined.md I6). -/
def driveLevels (p : Params) (wires : Vector Level 33) (s : State) :
    Host.Outcome State Fault Refusal :=
  match levelsToNat wires.toList with
  | some n =>
    .next { s with
      codec := s.codec.drive p.latency (codecOut p)
        { op := wordOp (BitVec.ofNat 33 n), din := wordDin (BitVec.ofNat 33 n) } }
  | none => .refused .unknownInput

end Sys2Proof.Machine
end

