-- ==== Sys2Proof/Machine/Values.lean ====
section
/-! DEFINITION. The values the two formats represent (30_encoding.md R35 and R37). No rule of the block
computes with them; the statements about exactness and rounding are made in their terms. The binary32
formulas are the standard's: PRESUMED, as R37 says (log 14). -/

namespace Sys2Proof.Machine

/-- The classes of R35 and R37. -/
inductive FloatClass where
  | infinity | nan | zero | subnormal | normal
deriving DecidableEq, Repr

/-- A value, with the sign of a zero kept (R35: +0 and -0 are distinct). -/
inductive FloatValue where
  | nan
  | infinity (negative : Bool)
  | finite (negative : Bool) (magnitude : ℚ)
deriving DecidableEq, Repr

/-- The class of a binary16 pattern (R35). -/
def class16 (h : Half) : FloatClass :=
  if exp16 h = 31#5 then if mant16 h = 0#10 then .infinity else .nan
  else if exp16 h = 0#5 then if mant16 h = 0#10 then .zero else .subnormal
  else .normal

/-- The class of a binary32 pattern (R37). -/
def class32 (a : Single) : FloatClass :=
  if exp32 a = 255#8 then if mant32 a = 0#23 then .infinity else .nan
  else if exp32 a = 0#8 then if mant32 a = 0#23 then .zero else .subnormal
  else .normal

/-- The magnitude of a finite binary16 pattern (R35): `m16/1024 · 2^-14` or
`(1 + m16/1024) · 2^(e16 - 15)`. -/
def magnitude16 (h : Half) : ℚ :=
  if exp16 h = 0#5 then ((mant16 h).toNat : ℚ) / 1024 * 2 ^ (-14 : ℤ)
  else (1 + ((mant16 h).toNat : ℚ) / 1024) * 2 ^ (((exp16 h).toNat : ℤ) - 15)

/-- The magnitude of a finite binary32 pattern (R37): `m32/2^23 · 2^-126` or
`(1 + m32/2^23) · 2^(e32 - 127)`. -/
def magnitude32 (a : Single) : ℚ :=
  if exp32 a = 0#8 then ((mant32 a).toNat : ℚ) / 2 ^ 23 * 2 ^ (-126 : ℤ)
  else (1 + ((mant32 a).toNat : ℚ) / 2 ^ 23) * 2 ^ (((exp32 a).toNat : ℤ) - 127)

/-- The value of a binary16 pattern (R35). -/
def value16 (h : Half) : FloatValue :=
  match class16 h with
  | .nan => .nan
  | .infinity => .infinity (sign16 h = 1#1)
  | .zero | .subnormal | .normal => .finite (sign16 h = 1#1) (magnitude16 h)

/-- The value of a binary32 pattern (R37). -/
def value32 (a : Single) : FloatValue :=
  match class32 a with
  | .nan => .nan
  | .infinity => .infinity (sign32 a = 1#1)
  | .zero | .subnormal | .normal => .finite (sign32 a = 1#1) (magnitude32 a)

/-- A value is a number of the real line. -/
def FloatValue.isFinite : FloatValue → Bool
  | .finite _ _ => true
  | .infinity _ => false
  | .nan => false

/-- The real number a finite value is. Only meaningful where `isFinite`. -/
def FloatValue.real : FloatValue → ℚ
  | .finite negative magnitude => if negative then -magnitude else magnitude
  | .infinity _ => 0
  | .nan => 0

/-- The order of values, infinities at its ends; a NaN is below and above nothing. -/
def FloatValue.le : FloatValue → FloatValue → Prop
  | .nan, _ => False
  | .infinity _, .nan => False
  | .finite _ _, .nan => False
  | .infinity true, .infinity _ => True
  | .infinity true, .finite _ _ => True
  | .infinity false, .infinity negative => negative = false
  | .infinity false, .finite _ _ => False
  | .finite _ _, .infinity negative => negative = false
  | .finite n m, .finite n' m' => (FloatValue.finite n m).real ≤ (FloatValue.finite n' m').real

/-- One unit in the last place at the exponent of a finite binary16 pattern (00_scope.md R12): the spacing
of the binary16 values with that exponent field (R35). -/
def ulp16 (h : Half) : ℚ :=
  if exp16 h = 0#5 then 2 ^ (-24 : ℤ) else 2 ^ (((exp16 h).toNat : ℤ) - 25)

end Sys2Proof.Machine
end

