-- ==== Sys2Proof/Safety.lean ====
section
/-! DEFINITION. The terms in which statements speak of the machine: the state a transaction delivers, the
outputs being the function of the inputs (10_state.md R17), a pipeline that fills as its edges pass
(70_reset_and_hazards.md R97), and a run in which the host drives the inputs before every edge. -/

namespace Sys2Proof.Machine

/-- The state a transaction leaves on this hardware: `x` stands on the codec's inputs and `d` on `dout`,
its pipeline is empty (latency 0), and everything else is as it was. -/
def State.delivered (s : State) (x : CodecIn) (d : BitVec 32) : State :=
  { s with codec := { input := x, output := d, pipe := [], edge := s.codec.edge, draws := s.codec.draws } }

/-- Every output port is the function of the input now on its block (R17; 40_half_float_codec.md R49). -/
def Settled (p : Params) (s : State) : Prop :=
  s.dout = codecOut p s.codec.input ∧ s.f16Out = enc p s.f32In ∧ s.f32Out = dec p s.f16In

/-- A block that has sampled nothing, counted no edge and drawn no free value (R95). -/
def Block.Combinational {ι ο : Type} (b : Block ι ο) : Prop :=
  b.pipe = [] ∧ b.edge = 0 ∧ b.draws = 0

/-- What holds of this hardware, latency 0, whenever a transaction has ended: its outputs are the function
of its inputs (R17) and it holds nothing from one transaction to the next (R13). -/
def HardwareInv (s : State) : Prop :=
  Settled Params.hardware s ∧ s.codec.Combinational ∧ s.encoder.Combinational ∧ s.decoder.Combinational

/-- The pipeline of a block holds as many samples as edges have passed, at most `L`, and in the window after
power-up or reset the output is a free value drawn earlier (R96, R97). -/
def Block.PipelineOk {ι ο : Type} (L : Nat) (free : Nat → ο) (b : Block ι ο) : Prop :=
  b.pipe.length = min b.edge L ∧ (L = 0 → b.edge = 0) ∧
    (L ≠ 0 → b.edge ≤ L → ∃ k, k < b.draws ∧ b.output = free k)

/-- `PipelineOk` of all three blocks of an implementation. -/
def PipelineInv (p : Params) (s : State) : Prop :=
  s.codec.PipelineOk p.latency Config.freeDout ∧ s.encoder.PipelineOk p.latency Config.freeF16Out ∧
    s.decoder.PipelineOk p.latency Config.freeF32Out

/-- A run of an implementation: before edge `n` the host drives `x n`, `a n` and `h n` on the three
blocks' inputs, and `σ (n + 1)` is the state in the cycle after edge `n` (R96). -/
def HostRun (p : Params) (σ : Nat → State) (x : Nat → CodecIn) (a : Nat → Single) (h : Nat → Half) :
    Prop :=
  ∀ n, stepWith p ((σ n).drive p (x n) (a n) (h n)) = .next (σ (n + 1))

end Sys2Proof.Machine
end

