-- ==== Sys2Proof/Certificates/Slice0/Obligations.lean ====
section
/-! DEFINITION. The statements for the provers: the rules of spec/ that say what a transaction or the machine
does. `State.delivered s x d` is `s` with `x` on the codec's inputs and `d` on `dout` and nothing else
changed but an emptied pipeline (which latency 0 never fills), so that an equation with it says the
result, the completion and the frame at once. -/

open Sys2Proof Sys2Proof.Machine

/-! ### Words and decoding -/

/-- The words of 30_encoding.md section 4 and 95_test_vectors.md section 2.3, numbered as the opcode
table numbers them, read as the transactions they stand for; what has more than 33 bits is no word. -/
def Obligations.HandWrittenWordsDecode : Prop :=
  decodeTableWord 33 0x03F800000 = some (.f32tof16 0x3F800000#32) ∧
  decodeTableWord 33 0x0FF800000 = some (.f32tof16 0xFF800000#32) ∧
  decodeTableWord 40 0x100003C00 = some (.f16tof32 0#16 0x3C00#16) ∧
  decodeTableWord 40 0x1ABCD8001 = some (.f16tof32 0xABCD#16 0x8001#16) ∧
  decodeTableWord 40 0x200000000 = none ∧
  encode (.f32tof16 0x3F800000#32) = 0x03F800000#33 ∧
  encode (.f16tof32 0#16 0x3C00#16) = 0x100003C00#33

/-- Decode and encode agree on every transaction (30_encoding.md R40 to R46): no bit is dropped. -/
def Obligations.DecodeInvertsEncode : Prop :=
  ∀ i : Instr, i.wellFormed = true → decode (encode i) = i

/-- Every word is the encoding of the transaction it selects, and lies in that transaction's row and in
no other (30_encoding.md R44: match and mask). -/
def Obligations.EncodeInvertsDecode : Prop :=
  ∀ t : TWord, encode (decode t) = t ∧
    ∀ i : Instr, t &&& rowMask = rowMatch i ↔ rowMatch (decode t) = rowMatch i

/-- 30_encoding.md R45: every one of the 2^33 words selects exactly one row, by bit 32, and produces a
defined result; under `F16TOF32` the bits `din[31:16]` do not affect `dout`. -/
def Obligations.EveryWordSelectsOneRow : Prop :=
  (∀ t : TWord,
    (t &&& rowMask = 0x000000000#33 ∧ decode t = .f32tof16 (t.extractLsb' 0 32)) ∨
    (t &&& rowMask = 0x100000000#33 ∧
      decode t = .f16tof32 (t.extractLsb' 16 16) (t.extractLsb' 0 16))) ∧
  (∀ (t : TWord) (s : State), ∃ u, exec (decode t) s = .next u) ∧
  (∀ (x y : BitVec 16) (h : Half) (s : State), ∃ u v,
    exec (.f16tof32 x h) s = .next u ∧ exec (.f16tof32 y h) s = .next v ∧ u.dout = v.dout)

/-- 30_encoding.md section 4 (R47): the aliases name the same operation for every literal, a line's word is
`{op, din}` with `din[31:16] = 0` for a 16-bit source, and a literal too wide for its operand has no word
under any mnemonic (that refusal is the model's choice, log 16). -/
def Obligations.AssemblerLinesEncodeTheirOperation : Prop :=
  (∀ n, assemble ⟨.enc, n⟩ = assemble ⟨.f32tof16, n⟩ ∧
    assemble ⟨.demote, n⟩ = assemble ⟨.f32tof16, n⟩ ∧
    assemble ⟨.dec, n⟩ = assemble ⟨.f16tof32, n⟩ ∧
    assemble ⟨.promote, n⟩ = assemble ⟨.f16tof32, n⟩) ∧
  (∀ n, n < 2 ^ 32 →
    assemble ⟨.f32tof16, n⟩ = some (encode (.f32tof16 (BitVec.ofNat 32 n)))) ∧
  (∀ n, n < 2 ^ 16 →
    assemble ⟨.f16tof32, n⟩ = some (encode (.f16tof32 0#16 (BitVec.ofNat 16 n)))) ∧
  (∀ n, 2 ^ 32 ≤ n → assemble ⟨.f32tof16, n⟩ = none ∧ assemble ⟨.enc, n⟩ = none ∧
    assemble ⟨.demote, n⟩ = none) ∧
  (∀ n, 2 ^ 16 ≤ n → assemble ⟨.f16tof32, n⟩ = none ∧ assemble ⟨.dec, n⟩ = none ∧
    assemble ⟨.promote, n⟩ = none)

/-! ### Steps -/

/-- A step runs the transaction whose word stands on `op` and `din`, and then evaluates the stand-alone
converters on their own inputs (10_state.md R17, R18, R19; that all three step together is the model's
choice, log 7). A word placed by `withFetchWord` is the one the next step runs (log 3). -/
def Obligations.StepRunsTheDecodedTransaction : Prop :=
  (∀ (s : State) (i : Instr) (t : State),
    decode (wordOf s.op s.din) = i → i.wellFormed = true → exec i s = .next t →
    step s = .next { t with
      encoder := { t.encoder with output := enc Params.hardware t.encoder.input, pipe := [] }
      decoder := { t.decoder with output := dec Params.hardware t.decoder.input, pipe := [] } }) ∧
  (∀ (s : State) (nbits w : Nat) (i : Instr), decodeTableWord nbits w = some i →
    decode (wordOf (s.withFetchWord nbits w).op (s.withFetchWord nbits w).din) = i)

/-- 40_half_float_codec.md R49: `dout` is a total function of `(op, din)`. -/
def Obligations.StepComputesDoutFromOpAndDin : Prop :=
  (∀ s : State, ∃ t, step s = .next t ∧
    (s.op = 0#1 → t.dout = (enc Params.hardware s.din).setWidth 32 ∧
      t.dout.extractLsb' 16 16 = 0#16) ∧
    (s.op = 1#1 → t.dout = dec Params.hardware (s.din.extractLsb' 0 16))) ∧
  (∀ s s' : State, s.op = 1#1 → s'.op = 1#1 →
    s.din.extractLsb' 0 16 = s'.din.extractLsb' 0 16 →
    ∃ t t', step s = .next t ∧ step s' = .next t' ∧ t.dout = t'.dout)

/-- 60_exceptions.md R82: no transaction raises anything, for any input, in any admitted implementation. -/
def Obligations.NoTransactionRaisesAnything : Prop :=
  (∀ (i : Instr) (s : State), ∃ t, exec i s = .next t) ∧
  (∀ s : State, ∃ t, step s = .next t) ∧
  (∀ (p : Params) (i : Instr) (s : State), ∃ t, execWith p i s = .next t) ∧
  (∀ (p : Params) (s : State), ∃ t, stepWith p s = .next t)

/-- The frame of both transactions in every admitted implementation: the stand-alone converters are as
they were, and the codec's inputs are the transaction's own `op` and `din` (20_memory.md R27, R33). -/
def Obligations.TransactionFrame : Prop :=
  (∀ (p : Params) (a : Single) (s : State), ∃ t, execWith p (.f32tof16 a) s = .next t ∧
    t.encoder = s.encoder ∧ t.decoder = s.decoder ∧ t.op = 0#1 ∧ t.din = a) ∧
  (∀ (p : Params) (x : BitVec 16) (h : Half) (s : State), ∃ t,
    execWith p (.f16tof32 x h) s = .next t ∧
    t.encoder = s.encoder ∧ t.decoder = s.decoder ∧ t.op = 1#1 ∧ t.din = x ++ h)

/-- 20_memory.md section 3 (R28, R13): a result depends on its own transaction only, so an earlier
transaction changes nothing of a later one, and neither do the outputs it starts from. -/
def Obligations.ResultsIgnoreEarlierTransactions : Prop :=
  (∀ (i j : Instr) (s : State), ∃ u, exec j s = .next u ∧ exec i u = exec i s) ∧
  (∀ s s' : State, s.codec.input = s'.codec.input → s.f32In = s'.f32In → s.f16In = s'.f16In →
    ∃ t t', step s = .next t ∧ step s' = .next t' ∧
      t.dout = t'.dout ∧ t.f16Out = t'.f16Out ∧ t.f32Out = t'.f32Out)

/-- 20_memory.md section 2 (R27): a transaction is idempotent, bit for bit. -/
def Obligations.TransactionsAreIdempotent : Prop :=
  (∀ (i : Instr) (s t : State), exec i s = .next t → exec i t = .next t) ∧
  (∀ s t : State, step s = .next t → step t = .next t)

/-- 20_memory.md section 3 and 60_exceptions.md section 2 (R33, R90): the blocks share nothing, in any
admitted implementation. -/
def Obligations.BlocksShareNothing : Prop :=
  ∀ (p : Params) (s s' : State), ∃ t t', stepWith p s = .next t ∧ stepWith p s' = .next t' ∧
    (s.codec = s'.codec → t.codec = t'.codec) ∧
    (s.encoder = s'.encoder → t.encoder = t'.encoder) ∧
    (s.decoder = s'.decoder → t.decoder = t'.decoder)

/-- 42_fp32_to_fp16.md R81 and 41_fp16_to_fp32.md R63: the stand-alone converters drive `ENC(f32_in)` and
`DEC(f16_in)`, and do nothing else (the pipeline of latency 0 is empty). -/
def Obligations.StandaloneConvertersDriveEncAndDec : Prop :=
  ∀ s : State, ∃ t, step s = .next t ∧
    t.encoder = { s.encoder with output := enc Params.hardware s.f32In, pipe := [] } ∧
    t.decoder = { s.decoder with output := dec Params.hardware s.f16In, pipe := [] }

/-- An input wire at X or Z is refused by name and no other one is (93_implementation_defined.md I6); the
33 levels of a transaction word drive `op` and `din` with that word (20_memory.md R24). -/
def Obligations.UnknownInputsAreRefused : Prop :=
  (∀ (p : Params) (wires : Vector Level 33) (s : State),
    (∃ i, ∃ h : i < 33, wires[i] = .unknown ∨ wires[i] = .undriven) →
    driveLevels p wires s = .refused .unknownInput) ∧
  (∀ (p : Params) (t : TWord) (s : State), ∃ u,
    driveLevels p (Vector.ofFn fun i : Fin 33 => if t.getLsbD i then .high else .low) s = .next u ∧
    wordOf u.op u.din = t)

/-! ### `F16TOF32` -/

/-- 41_fp16_to_fp32.md R62: the operation, its word, its corner cases and its worked example. It writes
no flag and raises nothing: `dout` and the presented inputs are all that changes. -/
def Obligations.F16tof32Operation : Prop :=
  (∀ (x : BitVec 16) (h : Half) (s : State),
    exec (.f16tof32 x h) s = .next (s.delivered ⟨1#1, x ++ h⟩ (dec Params.hardware h)) ∧
    encode (.f16tof32 x h) &&& 0x100000000#33 = 0x100000000#33) ∧
  (∀ (x : BitVec 16) (h : Half) (s : State), 0x7C01#16 ≤ h → h ≤ 0x7FFF#16 →
    exec (.f16tof32 x h) s = .next (s.delivered ⟨1#1, x ++ h⟩ 0x7FC00000#32)) ∧
  (∀ (x : BitVec 16) (h : Half) (s : State), 0xFC01#16 ≤ h →
    exec (.f16tof32 x h) s = .next (s.delivered ⟨1#1, x ++ h⟩ 0xFFC00000#32)) ∧
  (∀ hr ∈ ([(0x0000#16, 0x00000000#32), (0x8000#16, 0x80000000#32), (0x0001#16, 0x33800000#32),
      (0x03FF#16, 0x387FC000#32), (0x0400#16, 0x38800000#32), (0x7BFF#16, 0x477FE000#32),
      (0x7C00#16, 0x7F800000#32), (0xFC00#16, 0xFF800000#32), (0x3C00#16, 0x3F800000#32)] :
      List (Half × Single)),
    ∀ (x : BitVec 16) (s : State),
      exec (.f16tof32 x hr.1) s = .next (s.delivered ⟨1#1, x ++ hr.1⟩ hr.2)) ∧
  encode (.f16tof32 0#16 0x3C00#16) = 0x100003C00#33

/-- 41_fp16_to_fp32.md R54: an infinity gives the binary32 infinity of the same sign. -/
def Obligations.DecodeInfinity : Prop :=
  ∀ (x : BitVec 16) (h : Half) (s : State), exp16 h = 31#5 → mant16 h = 0#10 →
    exec (.f16tof32 x h) s =
      .next (s.delivered ⟨1#1, x ++ h⟩ (compose32 (sign16 h) 0xFF#8 0#23)) ∧
    compose32 (sign16 h) 0xFF#8 0#23 = if sign16 h = 0#1 then 0x7F800000#32 else 0xFF800000#32

/-- 41_fp16_to_fp32.md R55: a NaN gives `DEC_NAN_BITS(s, m16)`, on this hardware one pattern for each
sign, whatever the payload. -/
def Obligations.DecodeNan : Prop :=
  (∀ (p : Params) (h : Half), exp16 h = 31#5 → mant16 h ≠ 0#10 →
    dec p h = p.decNanBits (sign16 h) (mant16 h)) ∧
  (∀ (x : BitVec 16) (h : Half) (s : State), exp16 h = 31#5 → mant16 h ≠ 0#10 →
    exec (.f16tof32 x h) s =
      .next (s.delivered ⟨1#1, x ++ h⟩ (compose32 (sign16 h) 0xFF#8 0x400000#23)) ∧
    compose32 (sign16 h) 0xFF#8 0x400000#23 =
      if sign16 h = 0#1 then 0x7FC00000#32 else 0xFFC00000#32)

/-- 41_fp16_to_fp32.md R56: a zero gives the binary32 zero of the same sign. -/
def Obligations.DecodeSignedZero : Prop :=
  ∀ (x : BitVec 16) (h : Half) (s : State), exp16 h = 0#5 → mant16 h = 0#10 →
    exec (.f16tof32 x h) s =
      .next (s.delivered ⟨1#1, x ++ h⟩ (compose32 (sign16 h) 0#8 0#23)) ∧
    (h = 0x0000#16 ∧ compose32 (sign16 h) 0#8 0#23 = 0x00000000#32 ∨
      h = 0x8000#16 ∧ compose32 (sign16 h) 0#8 0#23 = 0x80000000#32)

/-- The subnormal case of 41_fp16_to_fp32.md section 1, in the reading of the source's "shift" that the
spec derives (R57: "[derived: from 30_encoding.md rule R35; see 91_not_in_source.md N7]"): with the
leading one of `m16` at `p`, the exponent is `103 + p` and the bits below it are left-justified. -/
def Obligations.DecodeSubnormal : Prop :=
  ∀ (x : BitVec 16) (h : Half) (s : State) (p : Nat), exp16 h = 0#5 →
    (mant16 h).getLsbD p = true → (∀ j, p < j → (mant16 h).getLsbD j = false) →
    p ≤ 9 ∧ ∃ r : Single,
      exec (.f16tof32 x h) s = .next (s.delivered ⟨1#1, x ++ h⟩ r) ∧
      sign32 r = sign16 h ∧ (exp32 r).toNat = 103 + p ∧
      (mant32 r).toNat = ((mant16 h).toNat - 2 ^ p) * 2 ^ (23 - p)

/-- 41_fp16_to_fp32.md R58: a normal keeps its significand and is rebiased by 112. -/
def Obligations.DecodeNormal : Prop :=
  (∀ (x : BitVec 16) (h : Half) (s : State), 1#5 ≤ exp16 h → exp16 h ≤ 30#5 →
    ∃ e : BitVec 8, (e.toNat : Int) = ((exp16 h).toNat : Int) - 15 + 127 ∧
      e.toNat = (exp16 h).toNat + 112 ∧ 113 ≤ e.toNat ∧ e.toNat ≤ 142 ∧
      exec (.f16tof32 x h) s = .next (s.delivered ⟨1#1, x ++ h⟩
        (compose32 (sign16 h) e (mant16 h ++ 0#13)))) ∧
  dec Params.hardware 0x3C00#16 = 0x3F800000#32

/-- 41_fp16_to_fp32.md R59: the result is `{s, e32, m32}`, and its sign bit is `h[15]` in every case, a
NaN's included; so in every admitted implementation. -/
def Obligations.DecodeKeepsSign : Prop :=
  (∀ (x : BitVec 16) (h : Half) (s : State), ∃ t e m,
    exec (.f16tof32 x h) s = .next t ∧ t.dout = compose32 (h.extractLsb' 15 1) e m ∧
    t.dout.extractLsb' 31 1 = h.extractLsb' 15 1 ∧ t.dout.extractLsb' 23 8 = e ∧
    t.dout.extractLsb' 0 23 = m) ∧
  (∀ (p : Params) (h : Half), p.Lawful → (dec p h).extractLsb' 31 1 = h.extractLsb' 15 1)

/-- Decode is exact, zeros and infinities with their sign included (41_fp16_to_fp32.md section 2, R60,
which the spec marks as derived). -/
def Obligations.DecodeIsExact : Prop :=
  ∀ (p : Params) (h : Half), class16 h ≠ .nan → value32 (dec p h) = value16 h

/-- Decode produces no binary32 subnormal, and `e32` of a nonzero finite result is in 103..142
(41_fp16_to_fp32.md section 2, R60, which the spec marks as derived). -/
def Obligations.DecodeNeverSubnormal : Prop :=
  ∀ (p : Params) (h : Half), p.Lawful →
    class32 (dec p h) ≠ .subnormal ∧
    (class16 h = .subnormal ∨ class16 h = .normal →
      103 ≤ (exp32 (dec p h)).toNat ∧ (exp32 (dec p h)).toNat ≤ 142)

/-- Decode is injective on the patterns that are no NaN (41_fp16_to_fp32.md section 2, R60, which the
spec marks as derived). -/
def Obligations.DecodeIsInjective : Prop :=
  ∀ (p : Params) (h h' : Half), class16 h ≠ .nan → class16 h' ≠ .nan → dec p h = dec p h' → h = h'

/-- Encoding what was decoded gives it back, for every pattern that is no NaN, in every admitted
implementation; a NaN comes back as `0x7E00` or `0xFE00` on this hardware (41_fp16_to_fp32.md section 2,
R61, whose NaN part the spec marks as derived). -/
def Obligations.EncodeUndoesDecode : Prop :=
  (∀ (p : Params) (h : Half), class16 h ≠ .nan → enc p (dec p h) = h) ∧
  (∀ h : Half, class16 h = .nan →
    enc Params.hardware (dec Params.hardware h) =
      if sign16 h = 0#1 then 0x7E00#16 else 0xFE00#16) ∧
  (∀ (x : BitVec 16) (h : Half) (s : State), class16 h ≠ .nan → ∃ t u,
    exec (.f16tof32 x h) s = .next t ∧ exec (.f32tof16 t.dout) t = .next u ∧
    u.dout = h.setWidth 32)

/-! ### `F32TOF16` -/

/-- 42_fp32_to_fp16.md R80: the operation, its word, its corner cases and its worked example. It writes no
flag and raises nothing: `dout` and the presented inputs are all that changes. -/
def Obligations.F32tof16Operation : Prop :=
  (∀ (a : Single) (s : State),
    exec (.f32tof16 a) s =
      .next (s.delivered ⟨0#1, a⟩ ((enc Params.hardware a).setWidth 32)) ∧
    ((enc Params.hardware a).setWidth 32 : BitVec 32).extractLsb' 16 16 = 0#16 ∧
    encode (.f32tof16 a) &&& 0x100000000#33 = 0x000000000#33) ∧
  (∀ a : Single, class32 a = .zero ∨ class32 a = .subnormal →
    enc Params.hardware a = compose16 (sign32 a) 0#5 0#10) ∧
  (∀ a : Single, 0x33000001#32 ≤ a → a ≤ 0x337FFFFF#32 → enc Params.hardware a = 0x0001#16) ∧
  (∀ a : Single, 0x387FE000#32 ≤ a → a ≤ 0x387FFFFF#32 → enc Params.hardware a = 0x0400#16) ∧
  (∀ a : Single, 113#8 ≤ exp32 a → exp32 a < 142#8 → a.extractLsb' 12 11 = 0x7FF#11 →
    enc Params.hardware a = compose16 (sign32 a) (BitVec.ofNat 5 ((exp32 a).toNat - 111)) 0#10) ∧
  (∀ a : Single, 0x477FF000#31 ≤ a.extractLsb' 0 31 → a.extractLsb' 0 31 ≤ 0x7F800000#31 →
    enc Params.hardware a = compose16 (sign32 a) 31#5 0#10) ∧
  (∀ a : Single, class32 a = .nan →
    class16 (enc Params.hardware a) = .nan ∧ sign16 (enc Params.hardware a) = sign32 a) ∧
  enc Params.hardware 0x33000000#32 = 0x0000#16 ∧
  enc Params.hardware 0x7F800000#32 = 0x7C00#16 ∧ enc Params.hardware 0xFF800000#32 = 0xFC00#16 ∧
  encode (.f32tof16 0x3F800000#32) = 0x03F800000#33 ∧
  (enc Params.hardware 0x3F800000#32).setWidth 32 = 0x00003C00#32

/-- 42_fp32_to_fp16.md R65: `e32` selects the path, and each path's results lie where the table says, the
ends `0x7C00` and `0x0400` of a finite path only by a rounding carry. For every `ENC_NAN_MANT` under its
law. -/
def Obligations.EncodePathsByExponent : Prop :=
  ∀ (p : Params) (a : Single), p.EncNanLaw →
    let e := (exp32 a).toNat
    let m := mant32 a
    let r := (enc p a).extractLsb' 0 15
    sign16 (enc p a) = sign32 a ∧ unbiased32 a = (e : Int) - 127 ∧
    (e = 255 → m ≠ 0#23 → 0x7C00#15 < r) ∧
    (e = 255 → m = 0#23 → r = 0x7C00#15) ∧
    (143 ≤ e → e ≤ 254 → r = 0x7C00#15) ∧
    (113 ≤ e → e ≤ 142 → 0x0400#15 ≤ r ∧ r ≤ 0x7C00#15 ∧
      (r = 0x7C00#15 → e = 142 ∧ m.extractLsb' 13 10 = 0x3FF#10 ∧ m.getLsbD 12 = true)) ∧
    (102 ≤ e → e ≤ 112 → r ≤ 0x0400#15 ∧
      (r = 0x0400#15 → e = 112 ∧ m.extractLsb' 14 9 = 0x1FF#9 ∧ m.getLsbD 13 = true)) ∧
    (e ≤ 101 → r = 0#15)

/-- 42_fp32_to_fp16.md R67: a NaN gives a NaN with the sign kept and the significand
`ENC_NAN_MANT(m32)`, on this hardware the top ten bits with bit 9 set. -/
def Obligations.EncodeNan : Prop :=
  (∀ (p : Params) (a : Single), exp32 a = 255#8 → mant32 a ≠ 0#23 →
    enc p a = compose16 (sign32 a) 31#5 (p.encNanMant (mant32 a))) ∧
  (∀ (a : Single) (s : State), exp32 a = 255#8 → mant32 a ≠ 0#23 →
    exec (.f32tof16 a) s = .next (s.delivered ⟨0#1, a⟩
      (0#16 ++ compose16 (sign32 a) 31#5 (0x200#10 ||| (mant32 a).extractLsb' 13 10)))) ∧
  (∀ m : BitVec 23, 0x200#10 ||| m.extractLsb' 13 10 ≠ 0#10) ∧
  enc Params.hardware 0x7FC00000#32 = 0x7E00#16 ∧ enc Params.hardware 0x7F800001#32 = 0x7E00#16 ∧
  enc Params.hardware 0xFFC00000#32 = 0xFE00#16 ∧ enc Params.hardware 0x7FFFFFFF#32 = 0x7FFF#16 ∧
  enc Params.hardware 0x7FA00000#32 = 0x7F00#16

/-- 42_fp32_to_fp16.md R68: an infinity gives the binary16 infinity of the same sign. -/
def Obligations.EncodeInfinity : Prop :=
  (∀ (a : Single) (s : State), exp32 a = 255#8 → mant32 a = 0#23 →
    exec (.f32tof16 a) s =
      .next (s.delivered ⟨0#1, a⟩ (0#16 ++ compose16 (sign32 a) 31#5 0#10))) ∧
  (∀ s : State,
    exec (.f32tof16 0x7F800000#32) s = .next (s.delivered ⟨0#1, 0x7F800000#32⟩ 0x00007C00#32) ∧
    exec (.f32tof16 0xFF800000#32) s = .next (s.delivered ⟨0#1, 0xFF800000#32⟩ 0x0000FC00#32))

/-- 42_fp32_to_fp16.md R69: overflow. The magnitude is at least 2^16 and beyond every finite binary16
value, and the result is the infinity of the input's sign, not 0x7BFF; `e32 = 142` can give it too. -/
def Obligations.EncodeOverflow : Prop :=
  (∀ (a : Single) (s : State), 143#8 ≤ exp32 a → exp32 a ≤ 254#8 →
    exec (.f32tof16 a) s = .next (s.delivered ⟨0#1, a⟩
      (if sign32 a = 0#1 then 0x00007C00#32 else 0x0000FC00#32)) ∧
    2 ^ 16 ≤ magnitude32 a ∧
    ∀ h : Half, (value16 h).isFinite = true → magnitude16 h < magnitude32 a) ∧
  (∃ a : Single, exp32 a = 142#8 ∧ enc Params.hardware a = 0x7C00#16)

/-- 42_fp32_to_fp16.md R70: the normal path drops 13 significand bits and rounds by their three bits; the
OR of the bits below the round bit is `sticky` (00_scope.md R10). -/
def Obligations.EncodeNormal : Prop :=
  (∀ (a : Single) (s : State), 113#8 ≤ exp32 a → exp32 a ≤ 142#8 →
    let m := mant32 a
    ∃ (e : BitVec 5) (v : BitVec 15), e.toNat = (exp32 a).toNat - 112 ∧ 1#5 ≤ e ∧ e ≤ 30#5 ∧
      v = e ++ m.extractLsb' 13 10 ∧
      (m.getLsbD 12 = true ∧ ((∃ j, j < 12 ∧ m.getLsbD j = true) ∨ m.getLsbD 13 = true) →
        exec (.f32tof16 a) s =
          .next (s.delivered ⟨0#1, a⟩ (0#16 ++ composeMag16 (sign32 a) (v + 1#15)))) ∧
      (¬ (m.getLsbD 12 = true ∧ ((∃ j, j < 12 ∧ m.getLsbD j = true) ∨ m.getLsbD 13 = true)) →
        exec (.f32tof16 a) s =
          .next (s.delivered ⟨0#1, a⟩ (0#16 ++ composeMag16 (sign32 a) v)))) ∧
  enc Params.hardware 0x3F801000#32 = 0x3C00#16 ∧ enc Params.hardware 0x3F803000#32 = 0x3C02#16 ∧
  enc Params.hardware 0x3F801001#32 = 0x3C01#16

/-- 42_fp32_to_fp16.md R71: a carry out of the kept significand clears it and adds one to the exponent,
to infinity from `e16 = 30`; the 15-bit increment never wraps. -/
def Obligations.EncodeNormalCarry : Prop :=
  (∀ (a : Single) (s : State), 113#8 ≤ exp32 a → exp32 a ≤ 142#8 →
    (mant32 a).extractLsb' 13 10 = 0x3FF#10 → (mant32 a).getLsbD 12 = true →
    exec (.f32tof16 a) s = .next (s.delivered ⟨0#1, a⟩
      (0#16 ++ compose16 (sign32 a) (BitVec.ofNat 5 ((exp32 a).toNat - 111)) 0#10)) ∧
    (exp32 a = 142#8 → compose16 (sign32 a) (BitVec.ofNat 5 ((exp32 a).toNat - 111)) 0#10 =
      compose16 (sign32 a) 31#5 0#10 ∧ 65520 ≤ magnitude32 a)) ∧
  (∀ (e : BitVec 5) (m : BitVec 10), e ≤ 30#5 →
    (e ++ m : BitVec 15) ≤ 0x7BFF#15 ∧
    ((e ++ m : BitVec 15) + 1#15).toNat = (e ++ m : BitVec 15).toNat + 1 ∧
    (e ++ m : BitVec 15) + 1#15 ≤ 0x7C00#15) ∧
  magnitude32 0x477FF000#32 = 65520 ∧
  enc Params.hardware 0x3FFFF000#32 = 0x4000#16 ∧ enc Params.hardware 0x477FEFFF#32 = 0x7BFF#16 ∧
  enc Params.hardware 0x477FF000#32 = 0x7C00#16

/-- 42_fp32_to_fp16.md R72 and R73: the subnormal path shifts the significand with its implicit one right
by `k = 126 - e32` and rounds by the three bits of what it drops; the carry out of `0x3FF` is the smallest
normal; `u = -25` gives 0 for the tie and `0x0001` otherwise. -/
def Obligations.EncodeSubnormal : Prop :=
  (∀ (a : Single) (s : State), 102#8 ≤ exp32 a → exp32 a ≤ 112#8 →
    let M : BitVec 24 := 1#1 ++ mant32 a
    ∃ (k : Nat) (q : BitVec 15), k + (exp32 a).toNat = 126 ∧ (k : Int) = -1 - unbiased32 a ∧
      14 ≤ k ∧ k ≤ 24 ∧ q.toNat = M.toNat / 2 ^ k ∧ q.toNat ≤ 0x3FF ∧
      (M.getLsbD (k - 1) = true ∧
          ((∃ j, j < k - 1 ∧ M.getLsbD j = true) ∨ q.getLsbD 0 = true) →
        exec (.f32tof16 a) s =
          .next (s.delivered ⟨0#1, a⟩ (0#16 ++ composeMag16 (sign32 a) (q + 1#15)))) ∧
      (¬ (M.getLsbD (k - 1) = true ∧
          ((∃ j, j < k - 1 ∧ M.getLsbD j = true) ∨ q.getLsbD 0 = true)) →
        exec (.f32tof16 a) s =
          .next (s.delivered ⟨0#1, a⟩ (0#16 ++ composeMag16 (sign32 a) q))) ∧
      (k = 24 → q = 0#15 ∧ M.getLsbD (k - 1) = true ∧
        ((∃ j, j < k - 1 ∧ M.getLsbD j = true) ↔ mant32 a ≠ 0#23)) ∧
      (q = 0x3FF#15 → composeMag16 (sign32 a) (q + 1#15) = compose16 (sign32 a) 1#5 0#10)) ∧
  (∀ (a : Single) (s : State), exp32 a = 102#8 →
    exec (.f32tof16 a) s = .next (s.delivered ⟨0#1, a⟩
      (0#16 ++ compose16 (sign32 a) 0#5 (if mant32 a = 0#23 then 0#10 else 1#10)))) ∧
  enc Params.hardware 0x33800000#32 = 0x0001#16 ∧ enc Params.hardware 0x33000000#32 = 0x0000#16 ∧
  enc Params.hardware 0x33000001#32 = 0x0001#16 ∧ enc Params.hardware 0x33C00000#32 = 0x0002#16 ∧
  enc Params.hardware 0x34200000#32 = 0x0002#16 ∧ enc Params.hardware 0x387FE000#32 = 0x0400#16 ∧
  enc Params.hardware 0x387FDFFF#32 = 0x03FF#16

/-- 42_fp32_to_fp16.md R74: underflow. The magnitude is below 2^-25, half the smallest subnormal, and the
result is the zero of the input's sign. -/
def Obligations.EncodeUnderflow : Prop :=
  (∀ (a : Single) (s : State), exp32 a ≤ 101#8 →
    exec (.f32tof16 a) s = .next (s.delivered ⟨0#1, a⟩
      (if sign32 a = 0#1 then 0x00000000#32 else 0x00008000#32)) ∧
    unbiased32 a ≤ -26 ∧ magnitude32 a < 2 ^ (-25 : ℤ) ∧
    (2 : ℚ) ^ (-25 : ℤ) = magnitude16 0x0001#16 / 2) ∧
  enc Params.hardware 0x32FFFFFF#32 = 0x0000#16

/-- Every binary32 zero and subnormal gives the zero of its sign (42_fp32_to_fp16.md section 1, R75,
which the spec marks as derived from R74). -/
def Obligations.EncodeZerosAndSubnormals : Prop :=
  ∀ (a : Single) (s : State), class32 a = .zero ∨ class32 a = .subnormal →
    exec (.f32tof16 a) s = .next (s.delivered ⟨0#1, a⟩ (0#16 ++ (sign32 a ++ 0#15 : BitVec 16)))

/-- 42_fp32_to_fp16.md R76: the result is `{s, e16, m16}` with the sign bit `a[31]` on every path. -/
def Obligations.EncodeKeepsSign : Prop :=
  (∀ (a : Single) (s : State), ∃ t e m,
    exec (.f32tof16 a) s = .next t ∧ t.dout = 0#16 ++ compose16 (a.extractLsb' 31 1) e m ∧
    t.dout.extractLsb' 15 1 = a.extractLsb' 31 1 ∧ t.dout.extractLsb' 10 5 = e ∧
    t.dout.extractLsb' 0 10 = m) ∧
  (∀ (p : Params) (a : Single), (enc p a).extractLsb' 15 1 = a.extractLsb' 31 1)

/-- Encode is exact on binary16 values, zeros and infinities with their sign included (R77(a) of
42_fp32_to_fp16.md section 2, which the spec marks as derived). -/
def Obligations.EncodeIsExactOnHalves : Prop :=
  ∀ (p : Params) (a : Single) (h : Half), class16 h ≠ .nan → value32 a = value16 h → enc p a = h

/-- Encode rounds to the nearest binary16 value, ties to even, below 65520, and gives the infinity of the
input's sign from 65520 on (R77(b) of 42_fp32_to_fp16.md section 2, which the spec marks as derived). -/
def Obligations.EncodeIsNearestTiesToEven : Prop :=
  ∀ (p : Params) (a : Single), (value32 a).isFinite = true →
    (|(value32 a).real| < 65520 →
      (value16 (enc p a)).isFinite = true ∧
      ∀ h : Half, (value16 h).isFinite = true →
        |(value16 (enc p a)).real - (value32 a).real| ≤ |(value16 h).real - (value32 a).real| ∧
        (|(value16 (enc p a)).real - (value32 a).real| = |(value16 h).real - (value32 a).real| →
          (value16 h).real ≠ (value16 (enc p a)).real → (mant16 (enc p a)).getLsbD 0 = false)) ∧
    (65520 ≤ |(value32 a).real| → value16 (enc p a) = .infinity (sign32 a = 1#1))

/-- Encode is symmetric in the sign (R77(c) of 42_fp32_to_fp16.md section 2, which the spec marks as
derived), in every admitted implementation. -/
def Obligations.EncodeIsSignSymmetric : Prop :=
  ∀ (p : Params) (a : Single), enc p (a ^^^ 0x80000000#32) = enc p a ^^^ 0x8000#16

/-- Encode is monotone (R77(d) of 42_fp32_to_fp16.md section 2, which the spec marks as derived). -/
def Obligations.EncodeIsMonotone : Prop :=
  ∀ (p : Params) (a b : Single), class32 a ≠ .nan → class32 b ≠ .nan →
    (value32 a).le (value32 b) → (value16 (enc p a)).le (value16 (enc p b))

/-- Encoding and decoding again is within half a unit in the last place of the result (R77(e) of
42_fp32_to_fp16.md section 2, which the spec marks as derived). -/
def Obligations.EncodeErrorIsHalfUlp : Prop :=
  ∀ (p : Params) (a : Single), (value32 a).isFinite = true → |(value32 a).real| < 65520 →
    |(value32 (dec p (enc p a))).real - (value32 a).real| ≤ ulp16 (enc p a) / 2

/-- A NaN goes to a NaN and nothing else does, both ways, in every implementation whose parameters meet
the laws of 00_scope.md R7. For ENC this is R77(f) of 42_fp32_to_fp16.md section 2, which the spec marks as
derived. For DEC the spec states it in no one rule: it follows from the cases of 41_fp16_to_fp32.md R53 (a
NaN takes DEC_NAN_BITS, whose law makes it a NaN) and from R60, whose value equation holds off NaN; the
classes are those of 30_encoding.md R35 and R37. -/
def Obligations.NanExactlyFromNan : Prop :=
  ∀ p : Params, p.Lawful →
    (∀ a : Single, class16 (enc p a) = .nan ↔ class32 a = .nan) ∧
    (∀ h : Half, class32 (dec p h) = .nan ↔ class16 h = .nan)

/-- The thresholds for a positive input, and for its negative (42_fp32_to_fp16.md R78, which the spec
marks as derived). -/
def Obligations.EncodeThresholds : Prop :=
  ∀ (p : Params) (a : Single),
    (a ≤ 0x33000000#32 → enc p a = 0x0000#16) ∧
    (0x33000001#32 ≤ a → a ≤ 0x33BFFFFF#32 → enc p a = 0x0001#16) ∧
    (0x33C00000#32 ≤ a → a ≤ 0x34200000#32 → enc p a = 0x0002#16) ∧
    (0x387FE000#32 ≤ a → a ≤ 0x38800000#32 → enc p a = 0x0400#16) ∧
    (0x477FE000#32 ≤ a → a ≤ 0x477FEFFF#32 → enc p a = 0x7BFF#16) ∧
    (0x477FF000#32 ≤ a → a ≤ 0x7F800000#32 → enc p a = 0x7C00#16) ∧
    (0x7F800001#32 ≤ a → a ≤ 0x7FFFFFFF#32 →
      enc p a = 0x7C00#16 ||| (p.encNanMant (mant32 a)).setWidth 16) ∧
    (a ≤ 0x7FFFFFFF#32 → enc p (0x80000000#32 ||| a) = enc p a ^^^ 0x8000#16)

/-- The NaNs this hardware produces have the quiet bit of the usual convention set (30_encoding.md section
1, R39: the convention is "[from general knowledge, not in source]", log 14). -/
def Obligations.HardwareNansAreQuiet : Prop :=
  (∀ a : Single, class32 a = .nan → (mant16 (enc Params.hardware a)).getLsbD 9 = true) ∧
  (∀ h : Half, class16 h = .nan → (mant32 (dec Params.hardware h)).getLsbD 22 = true)

/-- The pattern ranges of the binary16 classes and the values at their ends (30_encoding.md section 1,
R35, which the spec marks as derived from its table). -/
def Obligations.HalfClassesByRange : Prop :=
  (∀ h : Half, h ≤ 0x7FFF#16 →
    (class16 h = .zero ↔ h = 0x0000#16) ∧
    (class16 h = .subnormal ↔ 0x0001#16 ≤ h ∧ h ≤ 0x03FF#16) ∧
    (class16 h = .normal ↔ 0x0400#16 ≤ h ∧ h ≤ 0x7BFF#16) ∧
    (class16 h = .infinity ↔ h = 0x7C00#16) ∧
    (class16 h = .nan ↔ 0x7C01#16 ≤ h) ∧
    class16 (0x8000#16 ||| h) = class16 h ∧ magnitude16 (0x8000#16 ||| h) = magnitude16 h) ∧
  magnitude16 0x0001#16 = 2 ^ (-24 : ℤ) ∧ magnitude16 0x03FF#16 = 1023 * 2 ^ (-24 : ℤ) ∧
  magnitude16 0x0400#16 = 2 ^ (-14 : ℤ) ∧ magnitude16 0x7BFF#16 = 65504

/-- Each pair of patterns in the list is one quantity of 30_encoding.md R38, written in both formats. That
DEC and ENC take the one to the other R38 does not say: it follows from 41_fp16_to_fp32.md R60 (DEC is
exact, sign of zero included) and 42_fp32_to_fp16.md R77(a) (ENC is exact on binary16 values). The spec
marks all three rules as derived. -/
def Obligations.ConstantsCorrespond : Prop :=
  ∀ ha ∈ ([(0x0000#16, 0x00000000#32), (0x8000#16, 0x80000000#32), (0x0001#16, 0x33800000#32),
      (0x03FF#16, 0x387FC000#32), (0x0400#16, 0x38800000#32), (0x3C00#16, 0x3F800000#32),
      (0x4000#16, 0x40000000#32), (0x7BFF#16, 0x477FE000#32), (0x7C00#16, 0x7F800000#32),
      (0xFC00#16, 0xFF800000#32)] : List (Half × Single)),
    dec Params.hardware ha.1 = ha.2 ∧ enc Params.hardware ha.2 = ha.1

/-! ### Parameters -/

/-- This hardware's parameters are the defaults of 00_scope.md R7, and they meet the laws it requires. -/
def Obligations.HardwareParametersAreLawful : Prop :=
  Params.hardware.Lawful ∧ Params.hardware.latency = 0 ∧
  (∀ m : BitVec 23, Params.hardware.encNanMant m = 0x200#10 ||| m.extractLsb' 13 10) ∧
  (∀ (s : BitVec 1) (m : BitVec 10),
    Params.hardware.decNanBits s m = (s.setWidth 32 <<< 31) ||| 0x7FC00000#32)

/-- The parameters reach NaN results only: on every other input all implementations agree
(93_implementation_defined.md part 1). -/
def Obligations.ImplementationsAgreeOffNan : Prop :=
  (∀ (p q : Params) (a : Single), class32 a ≠ .nan → enc p a = enc q a) ∧
  (∀ (p q : Params) (h : Half), class16 h ≠ .nan → dec p h = dec q h)

/-! ### Invariants, reset and the pipeline -/

/-- Every step of this hardware keeps its outputs the function of its inputs (10_state.md R17) and holds
nothing from one transaction to the next (R13). -/
def Obligations.StepKeepsHardwareInv : Prop :=
  ∀ s t : State, HardwareInv s → step s = .next t → HardwareInv t

/-- So does every transaction and every change of the inputs by the host (40_half_float_codec.md R51),
a placed word and driven wires among them; a reset pulse changes nothing. -/
def Obligations.HostActionsKeepHardwareInv : Prop :=
  (∀ (i : Instr) (s t : State), HardwareInv s → exec i s = .next t → HardwareInv t) ∧
  (∀ (x : CodecIn) (a : Single) (h : Half) (s : State), HardwareInv s →
    HardwareInv (s.drive Params.hardware x a h)) ∧
  (∀ (w : TWord) (s : State), HardwareInv s → HardwareInv (s.withWord Params.hardware w)) ∧
  (∀ (nbits w : Nat) (s : State), HardwareInv s → HardwareInv (s.withFetchWord nbits w)) ∧
  (∀ (wires : Vector Level 33) (s t : State), HardwareInv s →
    driveLevels Params.hardware wires s = .next t → HardwareInv t) ∧
  (∀ s : State, HardwareInv s → s.resetPulse Params.hardware = s)

/-- Nothing is held but what the host drives (10_state.md section 1, R13): two states of this hardware with
the same values on their inputs are the same state. -/
def Obligations.InputsDetermineTheState : Prop :=
  ∀ s s' : State, HardwareInv s → HardwareInv s' → s.op = s'.op → s.din = s'.din →
    s.f32In = s'.f32In → s.f16In = s'.f16In → s = s'

/-- On this hardware an output is the function of the value now on its input (10_state.md section 2, R17),
whatever the state was before, an unreached one included: after a change of the inputs, a placed word,
a transaction or a step, and at every read. -/
def Obligations.OutputsFollowInputs : Prop :=
  (∀ (x : CodecIn) (a : Single) (h : Half) (s : State),
    Settled Params.hardware (s.drive Params.hardware x a h)) ∧
  (∀ (w : TWord) (s : State),
    (s.withWord Params.hardware w).dout =
      codecOut Params.hardware { op := wordOp w, din := wordDin w }) ∧
  (∀ (i : Instr) (s : State), ∃ t, exec i s = .next t ∧
    t.dout = codecOut Params.hardware { op := i.op, din := i.din }) ∧
  (∀ s : State, ∃ t, step s = .next t ∧ Settled Params.hardware t ∧
    t.codec.input = s.codec.input ∧ t.f32In = s.f32In ∧ t.f16In = s.f16In) ∧
  (∀ (s : State) (n : Nat),
    s.codec.read Params.hardware.latency (codecOut Params.hardware) n =
      .next (codecOut Params.hardware s.codec.input) ∧
    s.encoder.read Params.hardware.latency (enc Params.hardware) n =
      .next (enc Params.hardware s.f32In) ∧
    s.decoder.read Params.hardware.latency (dec Params.hardware) n =
      .next (dec Params.hardware s.f16In))

/-- The state at reset: the outputs are valid at power-up (10_state.md R23) whatever the inputs are, and
State.reset is power-up with every input at 0, which is the model's choice (log 2). -/
def Obligations.ResetOutputsAreValid : Prop :=
  HardwareInv State.reset ∧
  State.reset = State.powerUp Params.hardware 0 ⟨0#1, 0#32⟩ 0#32 0#16 ∧
  ∀ (d : Nat) (x : CodecIn) (a : Single) (h : Half), HardwareInv (State.powerUp Params.hardware d x a h)

/-- Every step of every implementation keeps: each pipeline holds as many samples as edges have passed, at
most `L`, latency 0 counts no edge, and in the window after power-up or reset the outputs are free values
(70_reset_and_hazards.md section 2; that a pipeline is a list of samples and the form of the free values are
the model's, log 8 and log 9). -/
def Obligations.StepKeepsPipelineInv : Prop :=
  ∀ (p : Params) (s t : State), PipelineInv p s → stepWith p s = .next t → PipelineInv p t

/-- Every step of every implementation samples the inputs of its three blocks (70_reset_and_hazards.md
section 2, R96) and changes no input. That a pipeline is the list of the inputs sampled at the last `L`
edges, newest first, is the model's form (DESIGN CHOICE, log 8): R96 fixes the outputs and leaves open what
the registers hold. -/
def Obligations.StepSamplesTheInputs : Prop :=
  ∀ (p : Params) (s : State), ∃ t, stepWith p s = .next t ∧
    t.codec.pipe = (s.codec.input :: s.codec.pipe).take p.latency ∧
    t.encoder.pipe = (s.encoder.input :: s.encoder.pipe).take p.latency ∧
    t.decoder.pipe = (s.decoder.input :: s.decoder.pipe).take p.latency ∧
    t.codec.input = s.codec.input ∧ t.encoder.input = s.encoder.input ∧
    t.decoder.input = s.decoder.input

/-- The pipeline is in order at power-up, and a reset pulse and the host's driving keep it so
(70_reset_and_hazards.md section 2; the form of the pipeline, of the free values and of the reset are the
model's, log 8, log 9 and log 12). -/
def Obligations.HostActionsKeepPipelineInv : Prop :=
  (∀ (p : Params) (d : Nat) (x : CodecIn) (a : Single) (h : Half),
    PipelineInv p (State.powerUp p d x a h)) ∧
  (∀ (p : Params) (s : State), PipelineInv p s → PipelineInv p (s.resetPulse p)) ∧
  (∀ (p : Params) (x : CodecIn) (a : Single) (h : Half) (s : State),
    PipelineInv p s → PipelineInv p (s.drive p x a h))

/-- 70_reset_and_hazards.md R96: the outputs in the cycle after edge `n + L` are the function of the
inputs sampled at edge `n`, one transaction at every edge, `op` carried with its operand. -/
def Obligations.PipelineDeliversAfterLatency : Prop :=
  ∀ (p : Params) (σ : Nat → State) (x : Nat → CodecIn) (a : Nat → Single) (h : Nat → Half),
    HostRun p σ x a h →
    ∀ n, (σ (n + p.latency + 1)).dout =
        (if (x n).op = 0#1 then (enc p (x n).din).setWidth 32
          else dec p ((x n).din.extractLsb' 0 16)) ∧
      (σ (n + p.latency + 1)).f16Out = enc p (a n) ∧
      (σ (n + p.latency + 1)).f32Out = dec p (h n)

/-- The window of 70_reset_and_hazards.md section 2 (R97): from power-up or a reset pulse the outputs
before the cycle after edge `L` are free values, a fresh one in every cycle (the form is the model's,
log 9). -/
def Obligations.WindowOutputsAreFree : Prop :=
  ∀ (p : Params) (σ : Nat → State) (x : Nat → CodecIn) (a : Nat → Single) (h : Nat → Half),
    p.latency ≠ 0 → HostRun p σ x a h →
    (∀ s : State, σ 0 = s.resetPulse p → ∀ n, n ≤ p.latency →
      (σ n).dout = Config.freeDout (s.codec.draws + n) ∧
      (σ n).f16Out = Config.freeF16Out (s.encoder.draws + n) ∧
      (σ n).f32Out = Config.freeF32Out (s.decoder.draws + n)) ∧
    (∀ (d : Nat) (x₀ : CodecIn) (a₀ : Single) (h₀ : Half), σ 0 = State.powerUp p d x₀ a₀ h₀ →
      ∀ n, n ≤ p.latency →
      (σ n).dout = Config.freeDout (d + n) ∧ (σ n).f16Out = Config.freeF16Out (d + n) ∧
      (σ n).f32Out = Config.freeF32Out (d + n))

/-- 70_reset_and_hazards.md R99: the result of the transaction of edge `n` must not be read before edge
`n + L`; in the cycle after that edge the read gives it; the port before that shows an earlier
transaction's result, or a free value in the window. -/
def Obligations.EarlyReadIsStuck : Prop :=
  ∀ (p : Params) (σ : Nat → State) (x : Nat → CodecIn) (a : Nat → Single) (h : Nat → Half),
    p.latency ≠ 0 → PipelineInv p (σ 0) → (σ 0).codec.edge = 0 → (σ 0).encoder.edge = 0 →
    (σ 0).decoder.edge = 0 → HostRun p σ x a h →
    ∀ n m,
      (m ≤ n + p.latency →
        (σ m).codec.read p.latency (codecOut p) n = .fault .earlyRead ∧
        (σ m).encoder.read p.latency (enc p) n = .fault .earlyRead ∧
        (σ m).decoder.read p.latency (dec p) n = .fault .earlyRead ∧
        ((∃ k, k < n ∧ (σ m).dout = codecOut p (x k) ∧ m = k + p.latency + 1) ∨
          (m ≤ p.latency ∧ ∃ k, (σ m).dout = Config.freeDout k))) ∧
      (m = n + p.latency + 1 →
        (σ m).codec.read p.latency (codecOut p) n = .next (codecOut p (x n)) ∧
        (σ m).encoder.read p.latency (enc p) n = .next (enc p (a n)) ∧
        (σ m).decoder.read p.latency (dec p) n = .next (dec p (h n)))

/-- 70_reset_and_hazards.md R98: this hardware has no hazard. A read is never held back, and changing `op`
from one transaction to the next has no effect but the new selection. -/
def Obligations.HardwareHasNoHazard : Prop :=
  (∀ (s : State) (n : Nat),
    s.codec.read Params.hardware.latency (codecOut Params.hardware) n =
      .next (codecOut Params.hardware s.codec.input) ∧
    s.encoder.read Params.hardware.latency (enc Params.hardware) n =
      .next (enc Params.hardware s.f32In) ∧
    s.decoder.read Params.hardware.latency (dec Params.hardware) n =
      .next (dec Params.hardware s.f16In)) ∧
  (∀ (a b : Single) (x y : BitVec 16) (h : Half) (s : State), ∃ t,
    exec (.f32tof16 a) s = .next t ∧
    exec (.f16tof32 x h) t = exec (.f16tof32 x h) s ∧
    ∃ u, exec (.f16tof32 y h) s = .next u ∧ exec (.f32tof16 b) u = exec (.f32tof16 b) s)
end

