-- ==== Sys2Proof/Laws/Ops.lean ====
section
/-! SUPPORT. What each shared operation can do, said once: a block's transaction, its reset, drive and
read, the leading-one index and the rounding of a kept value. -/

namespace Sys2Proof.Machine

section Block

variable {ι ο : Type} (L : Nat) (f : ι → ο) (free : Nat → ο) (b : Block ι ο) (x : ι)

@[simp] theorem Block.clock_input : (b.clock L f free).input = b.input := by
  unfold Block.clock; split <;> rfl

@[simp] theorem Block.clock_pipe : (b.clock L f free).pipe = (b.input :: b.pipe).take L := by
  unfold Block.clock; split <;> rfl

@[simp] theorem Block.clock_edge : (b.clock L f free).edge = nextEdge L b.edge := by
  unfold Block.clock; split <;> rfl

/-- The output of a transaction: the function of the input `L` edges back, or else a free value. -/
theorem Block.clock_output :
    (b.clock L f free).output =
      match (b.input :: b.pipe)[L]? with
      | some y => f y
      | none => free b.draws := by
  unfold Block.clock; cases (b.input :: b.pipe)[L]? <;> rfl

/-- A free value is drawn exactly where no input reaches the output. -/
theorem Block.clock_draws :
    (b.clock L f free).draws =
      match (b.input :: b.pipe)[L]? with
      | some _ => b.draws
      | none => b.draws + 1 := by
  unfold Block.clock; cases (b.input :: b.pipe)[L]? <;> rfl

/-- At latency 0 a transaction is the combinational evaluation of the input now driven. -/
theorem Block.clock_zero :
    b.clock 0 f free = { b with output := f b.input, pipe := [] } := rfl

/-- Where an input of `L` edges back exists, the output is its result. -/
theorem Block.clock_output_of_sample {y : ι} (h : (b.input :: b.pipe)[L]? = some y) :
    (b.clock L f free).output = f y := by
  rw [Block.clock_output, h]

/-- Where fewer than `L` edges have passed, the output is a fresh free value. -/
theorem Block.clock_output_of_window (h : b.pipe.length < L) :
    (b.clock L f free).output = free b.draws ∧ (b.clock L f free).draws = b.draws + 1 := by
  have hn : (b.input :: b.pipe)[L]? = none := by simp; omega
  rw [Block.clock_output, Block.clock_draws, hn]; exact ⟨rfl, rfl⟩

@[simp] theorem Block.drive_input : (b.drive L f x).input = x := rfl
@[simp] theorem Block.drive_pipe : (b.drive L f x).pipe = b.pipe := rfl
@[simp] theorem Block.drive_edge : (b.drive L f x).edge = b.edge := rfl
@[simp] theorem Block.drive_draws : (b.drive L f x).draws = b.draws := rfl

/-- Driving an input and letting an edge pass is presenting it in a transaction. -/
theorem Block.clock_drive : (b.drive L f x).clock L f free = b.transact L f free x := rfl

@[simp] theorem Block.feed_nil : b.feed L f free [] = b := rfl

@[simp] theorem Block.feed_cons (xs : List ι) :
    b.feed L f free (x :: xs) = (b.transact L f free x).feed L f free xs := rfl

/-- At latency 0 the output follows the input as it is driven (10_state.md R17). -/
theorem Block.drive_zero : b.drive 0 f x = { b with input := x, output := f x } := rfl

/-- At latency 0 power-up has a valid output (10_state.md R23). -/
theorem Block.powerUp_zero (d : Nat) :
    Block.powerUp 0 f free d x = { input := x, output := f x, pipe := [], edge := 0, draws := 0 } := rfl

/-- At latency 0 there is nothing to reset (70_reset_and_hazards.md R93). -/
theorem Block.resetPulse_zero : b.resetPulse 0 free = b := rfl

/-- At latency 0 a read is the function of the value now on the input, in every state (10_state.md R17). -/
theorem Block.read_zero (n : Nat) : b.read 0 f n = .next (f b.input) := rfl

/-- A read answers with the function of the input at latency 0, and with the output or the one fault
`earlyRead` otherwise. -/
theorem Block.read_cases (n : Nat) :
    (L = 0 ∧ b.read L f n = .next (f b.input)) ∨
      (L ≠ 0 ∧ n + L < b.edge ∧ b.read L f n = .next b.output) ∨
      (L ≠ 0 ∧ b.edge ≤ n + L ∧ b.read L f n = .fault .earlyRead) := by
  by_cases hL : L = 0
  · exact .inl ⟨hL, if_pos hL⟩
  by_cases he : b.edge ≤ n + L
  · exact .inr (.inr ⟨hL, he, (if_neg hL).trans (if_pos he)⟩)
  · exact .inr (.inl ⟨hL, Nat.lt_of_not_le he, (if_neg hL).trans (if_neg he)⟩)

end Block

/-- The leading-one index is below the bound it searches. -/
theorem msbBelow_lt {w : Nat} (v : BitVec w) : ∀ n, 0 < n → msbBelow v n < n
  | 0, h => absurd h (Nat.lt_irrefl 0)
  | 1, _ => by rw [msbBelow]; split <;> simp [msbBelow]
  | n + 2, _ => by
    have := msbBelow_lt v (n + 1) (Nat.succ_pos n)
    rw [msbBelow]; split <;> omega

/-- The leading one is set, and no bit between it and the bound is. -/
theorem msbBelow_spec {w : Nat} (v : BitVec w) :
    ∀ n, (∃ j, j < n ∧ v.getLsbD j = true) →
      v.getLsbD (msbBelow v n) = true ∧ ∀ j, msbBelow v n < j → j < n → v.getLsbD j = false
  | 0, ⟨j, hj, _⟩ => absurd hj (Nat.not_lt_zero j)
  | n + 1, ⟨j, hj, hb⟩ => by
    unfold msbBelow
    split
    · next h => exact ⟨h, fun i hi hi' => by omega⟩
    · next h =>
      have hjn : j < n := by
        rcases Nat.lt_succ_iff_lt_or_eq.mp hj with hlt | rfl
        · exact hlt
        · exact absurd hb h
      obtain ⟨h1, h2⟩ := msbBelow_spec v n ⟨j, hjn, hb⟩
      refine ⟨h1, fun i hi hi' => ?_⟩
      rcases Nat.lt_succ_iff_lt_or_eq.mp hi' with hlt | rfl
      · exact h2 i hi hlt
      · simpa using h

/-- Rounding keeps the value or adds one to it, by the three bits of 00_scope.md R10. -/
theorem roundKept_cases {w : Nat} (kept : BitVec w) (round sticky : Bool) :
    (roundKept kept round sticky = kept + 1#w ∧ round = true ∧
        (sticky = true ∨ kept.getLsbD 0 = true)) ∨
      (roundKept kept round sticky = kept ∧
        ¬ (round = true ∧ (sticky = true ∨ kept.getLsbD 0 = true))) := by
  unfold roundKept
  cases round <;> cases sticky <;> cases kept.getLsbD 0 <;> simp

end Sys2Proof.Machine
end

