-- ==== Sys2Proof/Laws/State.lean ====
section
/-! SUPPORT. The small lemmas of the state: what each port reads after each update. -/

namespace Sys2Proof.Machine

variable (s : State) (x : CodecIn) (d : BitVec 32) (t : TWord)

@[simp] theorem State.delivered_op : (s.delivered x d).op = x.op := rfl
@[simp] theorem State.delivered_din : (s.delivered x d).din = x.din := rfl
@[simp] theorem State.delivered_input : (s.delivered x d).codec.input = x := rfl
@[simp] theorem State.delivered_dout : (s.delivered x d).dout = d := rfl
@[simp] theorem State.delivered_output : (s.delivered x d).codec.output = d := rfl
@[simp] theorem State.delivered_pipe : (s.delivered x d).codec.pipe = [] := rfl
@[simp] theorem State.delivered_edge : (s.delivered x d).codec.edge = s.codec.edge := rfl
@[simp] theorem State.delivered_draws : (s.delivered x d).codec.draws = s.codec.draws := rfl
@[simp] theorem State.delivered_encoder : (s.delivered x d).encoder = s.encoder := rfl
@[simp] theorem State.delivered_decoder : (s.delivered x d).decoder = s.decoder := rfl

@[simp] theorem State.withWord_op (p : Params) : (s.withWord p t).op = wordOp t := rfl
@[simp] theorem State.withWord_din (p : Params) : (s.withWord p t).din = wordDin t := rfl
@[simp] theorem State.withWord_codec (p : Params) : (s.withWord p t).codec =
    s.codec.drive p.latency (codecOut p) { op := wordOp t, din := wordDin t } := rfl
@[simp] theorem State.withWord_encoder (p : Params) : (s.withWord p t).encoder = s.encoder := rfl
@[simp] theorem State.withWord_decoder (p : Params) : (s.withWord p t).decoder = s.decoder := rfl

@[simp] theorem State.transact_encoder (p : Params) : (s.transact p x).encoder = s.encoder := rfl
@[simp] theorem State.transact_decoder (p : Params) : (s.transact p x).decoder = s.decoder := rfl
@[simp] theorem State.transact_codec (p : Params) :
    (s.transact p x).codec = s.codec.transact p.latency (codecOut p) Config.freeDout x := rfl

@[simp] theorem State.clockConverters_codec (p : Params) : (s.clockConverters p).codec = s.codec := rfl
@[simp] theorem State.clockConverters_encoder (p : Params) :
    (s.clockConverters p).encoder = s.encoder.clock p.latency (enc p) Config.freeF16Out := rfl
@[simp] theorem State.clockConverters_decoder (p : Params) :
    (s.clockConverters p).decoder = s.decoder.clock p.latency (dec p) Config.freeF32Out := rfl

@[simp] theorem State.drive_codec (p : Params) (a : Single) (h : Half) :
    (s.drive p x a h).codec = s.codec.drive p.latency (codecOut p) x := rfl
@[simp] theorem State.drive_encoder (p : Params) (a : Single) (h : Half) :
    (s.drive p x a h).encoder = s.encoder.drive p.latency (enc p) a := rfl
@[simp] theorem State.drive_decoder (p : Params) (a : Single) (h : Half) :
    (s.drive p x a h).decoder = s.decoder.drive p.latency (dec p) h := rfl

end Sys2Proof.Machine
end

