-- ==== Sys2Proof/Laws/Codec.lean ====
section
/-! SUPPORT. A transaction and a step, each said once for all instructions; hardware as the instance of
the parametric machine at its own parameters. -/

namespace Sys2Proof.Machine

theorem hardware_latency : Params.hardware.latency = 0 := rfl

/-- A transaction presents its word to the codec, and does nothing else. -/
theorem execWith_eq (p : Params) (i : Instr) (s : State) :
    execWith p i s = .next (s.transact p (inputOf i)) := by
  cases i <;> rfl

/-- This hardware is the machine at its own parameters. -/
theorem exec_eq (i : Instr) (s : State) : exec i s = execWith Params.hardware i s := by
  cases i <;> rfl

/-- At latency 0 a transaction delivers the function of its own input. -/
theorem transact_hardware (x : CodecIn) (s : State) :
    s.transact Params.hardware x = s.delivered x (codecOut Params.hardware x) := rfl

/-- The transaction a word selects presents that word's own `op` and `din`. -/
theorem inputOf_decode (t : TWord) : inputOf (decode t) = { op := wordOp t, din := wordDin t } := by
  have h1 : wordOp t = 0#1 ∨ wordOp t = 1#1 := by
    rcases BitVec.eq_zero_or_eq_one (wordOp t) with h | h
    · exact .inl h
    · exact .inr h
  unfold decode inputOf
  rcases h1 with h | h
  · rw [if_pos h, h]; rfl
  · rw [if_neg (by rw [h]; decide), h]
    have : (wordDin t).extractLsb' 16 16 ++ (wordDin t).extractLsb' 0 16 = wordDin t := by
      ext i hi
      simp
      grind
    simp only [Instr.op, Instr.din, this]

/-- The ports joined to a word and taken apart again are the ports. -/
theorem wordOp_wordOf (op : BitVec 1) (din : BitVec 32) : wordOp (wordOf op din) = op := by
  ext i hi; simp [wordOp, wordOf, BitVec.getElem_extractLsb']; grind

/-- The same for `din`. -/
theorem wordDin_wordOf (op : BitVec 1) (din : BitVec 32) : wordDin (wordOf op din) = din := by
  ext i hi; simp [wordDin, wordOf, BitVec.getElem_extractLsb']; grind

/-- The transaction on the ports presents the inputs that stand there already. -/
theorem inputOf_decode_word (s : State) : inputOf (decode s.word) = s.codec.input := by
  rw [inputOf_decode]; unfold State.word; rw [wordOp_wordOf, wordDin_wordOf]; rfl

/-- A step of an implementation: a transaction of each block on the input it has. -/
theorem stepWith_eq (p : Params) (s : State) :
    stepWith p s = .next
      ((s.transact p s.codec.input).clockConverters p) := by
  unfold stepWith; rw [execWith_eq, inputOf_decode_word]

/-- A step of this hardware is a step of the machine at its parameters. -/
theorem step_eq (s : State) : step s = stepWith Params.hardware s := by
  rw [stepWith_eq]; unfold step; rw [exec_eq, execWith_eq, inputOf_decode_word]

end Sys2Proof.Machine
end

