-- ==== Sys2Proof/Laws/Convert.lean ====
section
/-! SUPPORT. The two conversions, each said once by its cases, and the sticky bit as the OR of bits. -/

namespace Sys2Proof.Machine

/-- `DEC` by the cases of 41_fp16_to_fp32.md R53. -/
theorem dec_cases (p : Params) (h : Half) :
    (exp16 h = 31#5 ∧ mant16 h = 0#10 ∧ dec p h = compose32 (sign16 h) 0xFF#8 0#23) ∨
    (exp16 h = 31#5 ∧ mant16 h ≠ 0#10 ∧ dec p h = p.decNanBits (sign16 h) (mant16 h)) ∨
    (exp16 h = 0#5 ∧ mant16 h = 0#10 ∧ dec p h = compose32 (sign16 h) 0#8 0#23) ∨
    (exp16 h = 0#5 ∧ mant16 h ≠ 0#10 ∧ dec p h = decSubnormal (sign16 h) (mant16 h)) ∨
    (exp16 h ≠ 31#5 ∧ exp16 h ≠ 0#5 ∧ dec p h = decNormal (sign16 h) (exp16 h) (mant16 h)) := by
  by_cases h1 : exp16 h = 31#5
  · by_cases h2 : mant16 h = 0#10
    · exact .inl ⟨h1, h2, if_pos ⟨h1, h2⟩⟩
    · exact .inr (.inl ⟨h1, h2, (if_neg fun c => h2 c.2).trans (if_pos h1)⟩)
  · by_cases h3 : exp16 h = 0#5
    · have skip : dec p h = if exp16 h = 0#5 ∧ mant16 h = 0#10 then compose32 (sign16 h) 0#8 0#23
          else if exp16 h = 0#5 then decSubnormal (sign16 h) (mant16 h)
          else decNormal (sign16 h) (exp16 h) (mant16 h) :=
        (if_neg fun c => h1 c.1).trans (if_neg h1)
      by_cases h2 : mant16 h = 0#10
      · exact .inr (.inr (.inl ⟨h3, h2, skip.trans (if_pos ⟨h3, h2⟩)⟩))
      · exact .inr (.inr (.inr (.inl
          ⟨h3, h2, skip.trans ((if_neg fun c => h2 c.2).trans (if_pos h3))⟩)))
    · exact .inr (.inr (.inr (.inr ⟨h1, h3, (if_neg fun c => h1 c.1).trans ((if_neg h1).trans
        ((if_neg fun c => h3 c.1).trans (if_neg h3)))⟩)))

/-- `ENC` by the paths of 42_fp32_to_fp16.md R65. -/
theorem enc_cases (p : Params) (a : Single) :
    (exp32 a = 255#8 ∧ mant32 a ≠ 0#23 ∧
      enc p a = compose16 (sign32 a) 31#5 (p.encNanMant (mant32 a))) ∨
    (exp32 a = 255#8 ∧ mant32 a = 0#23 ∧ enc p a = compose16 (sign32 a) 31#5 0#10) ∨
    (exp32 a ≠ 255#8 ∧ 143#8 ≤ exp32 a ∧ enc p a = compose16 (sign32 a) 31#5 0#10) ∨
    (¬ 143#8 ≤ exp32 a ∧ 113#8 ≤ exp32 a ∧
      enc p a = encNormal (sign32 a) (exp32 a) (mant32 a)) ∨
    (¬ 113#8 ≤ exp32 a ∧ 102#8 ≤ exp32 a ∧
      enc p a = encSubnormal (sign32 a) (exp32 a) (mant32 a)) ∨
    (¬ 102#8 ≤ exp32 a ∧ enc p a = composeMag16 (sign32 a) 0#15) := by
  by_cases h1 : exp32 a = 255#8
  · by_cases h2 : mant32 a = 0#23
    · exact .inr (.inl ⟨h1, h2, (if_neg fun c => c.2 h2).trans (if_pos h1)⟩)
    · exact .inl ⟨h1, h2, if_pos ⟨h1, h2⟩⟩
  have finite : enc p a = if 143#8 ≤ exp32 a then compose16 (sign32 a) 31#5 0#10
      else if 113#8 ≤ exp32 a then encNormal (sign32 a) (exp32 a) (mant32 a)
      else if 102#8 ≤ exp32 a then encSubnormal (sign32 a) (exp32 a) (mant32 a)
      else composeMag16 (sign32 a) 0#15 := (if_neg fun c => h1 c.1).trans (if_neg h1)
  by_cases h3 : 143#8 ≤ exp32 a
  · exact .inr (.inr (.inl ⟨h1, h3, finite.trans (if_pos h3)⟩))
  by_cases h4 : 113#8 ≤ exp32 a
  · exact .inr (.inr (.inr (.inl ⟨h3, h4, finite.trans ((if_neg h3).trans (if_pos h4))⟩)))
  by_cases h5 : 102#8 ≤ exp32 a
  · exact .inr (.inr (.inr (.inr (.inl
      ⟨h4, h5, finite.trans ((if_neg h3).trans ((if_neg h4).trans (if_pos h5)))⟩))))
  · exact .inr (.inr (.inr (.inr (.inr
      ⟨h5, finite.trans ((if_neg h3).trans ((if_neg h4).trans (if_neg h5)))⟩))))

/-- `sticky` is set exactly when some bit below the round bit is (00_scope.md R10). -/
theorem stickyBit_iff {w : Nat} (v : BitVec w) (k : Nat) :
    stickyBit v k = true ↔ ∃ j, j < k - 1 ∧ v.getLsbD j = true := by
  unfold stickyBit
  rw [bne_iff_ne]
  constructor
  · intro h
    by_contra hc
    apply h
    apply Nat.eq_of_testBit_eq
    intro j
    rw [Nat.testBit_mod_two_pow, Nat.zero_testBit]
    by_cases hj : j < k - 1
    · have hb : v.toNat.testBit j = false := by
        rw [← BitVec.getLsbD]; simpa using fun hb => hc ⟨j, hj, hb⟩
      rw [hb, Bool.and_false]
    · simp [hj]
  · rintro ⟨j, hj, hb⟩ h0
    have : (v.toNat % 2 ^ (k - 1)).testBit j = true := by
      rw [Nat.testBit_mod_two_pow]
      simp only [hj, decide_true, Bool.true_and]
      exact hb
    rw [h0, Nat.zero_testBit] at this
    exact Bool.noConfusion this

end Sys2Proof.Machine
end

