-- ==== Sys2Proof/Laws/Operands.lean ====
section
/-! SUPPORT. Fields and compositions undo each other. -/

namespace Sys2Proof.Machine

variable (s : BitVec 1) (a : Single) (h : Half)

@[simp] theorem sign32_compose32 (e : BitVec 8) (m : BitVec 23) : sign32 (compose32 s e m) = s := by
  ext i hi; simp [sign32, compose32, BitVec.getElem_extractLsb']; grind
@[simp] theorem exp32_compose32 (e : BitVec 8) (m : BitVec 23) : exp32 (compose32 s e m) = e := by
  ext i hi; simp [exp32, compose32, BitVec.getElem_extractLsb']; grind
@[simp] theorem mant32_compose32 (e : BitVec 8) (m : BitVec 23) : mant32 (compose32 s e m) = m := by
  ext i hi; simp [mant32, compose32, BitVec.getElem_extractLsb']; grind
@[simp] theorem sign16_compose16 (e : BitVec 5) (m : BitVec 10) : sign16 (compose16 s e m) = s := by
  ext i hi; simp [sign16, compose16, BitVec.getElem_extractLsb']; grind
@[simp] theorem exp16_compose16 (e : BitVec 5) (m : BitVec 10) : exp16 (compose16 s e m) = e := by
  ext i hi; simp [exp16, compose16, BitVec.getElem_extractLsb']; grind
@[simp] theorem mant16_compose16 (e : BitVec 5) (m : BitVec 10) : mant16 (compose16 s e m) = m := by
  ext i hi; simp [mant16, compose16, BitVec.getElem_extractLsb']; grind
@[simp] theorem sign16_composeMag16 (v : BitVec 15) : sign16 (composeMag16 s v) = s := by
  ext i hi; simp [sign16, composeMag16, BitVec.getElem_extractLsb']; grind

/-- A pattern is put together from its fields. -/
theorem compose32_fields : compose32 (sign32 a) (exp32 a) (mant32 a) = a := by
  ext i hi
  simp [sign32, exp32, mant32, compose32]
  grind

/-- The same for binary16. -/
theorem compose16_fields : compose16 (sign16 h) (exp16 h) (mant16 h) = h := by
  ext i hi
  simp [sign16, exp16, mant16, compose16]
  grind

end Sys2Proof.Machine
end

