-- ==== Sys2Proof/Laws/PerInstr.lean ====
section
/-! SUPPORT. Statements made per instruction: the fields of an encoded word are the ports the transaction
presents (30_encoding.md R40, R44). -/

namespace Sys2Proof.Laws.EncodedFields

/-- Bit 32 of the encoded word is the transaction's `op` and bits 31..0 are its `din`. -/
def Statement (i : Instr) : Prop :=
  i.wellFormed = true → wordOp (encode i) = i.op ∧ wordDin (encode i) = i.din

theorem f32tof16 (a : Single) : Statement (.f32tof16 a) := by
  intro _
  constructor <;> ext j hj <;>
    simp [wordOp, wordDin, encode, Instr.op, Instr.din, BitVec.getElem_extractLsb'] <;> grind

theorem f16tof32 (x : BitVec 16) (h : Half) : Statement (.f16tof32 x h) := by
  intro _
  constructor <;> ext j hj <;>
    simp [wordOp, wordDin, encode, Instr.op, Instr.din, BitVec.getElem_extractLsb'] <;> grind

end Sys2Proof.Laws.EncodedFields
end

