-- ==== Sys2Proof/Laws/Values.lean ====
section
/-! SUPPORT. The magnitudes of the two formats as whole numbers of units: of 2^-24 for binary16 and of
2^-149 for binary32, so that statements about values become statements about natural numbers. -/

namespace Sys2Proof.Machine

/-- The magnitude of a finite binary16 pattern in units of 2^-24. -/
def units16 (h : Half) : Nat :=
  if exp16 h = 0#5 then (mant16 h).toNat else (1024 + (mant16 h).toNat) * 2 ^ ((exp16 h).toNat - 1)

/-- The magnitude of a finite binary32 pattern in units of 2^-149. -/
def units32 (a : Single) : Nat :=
  if exp32 a = 0#8 then (mant32 a).toNat
  else (2 ^ 23 + (mant32 a).toNat) * 2 ^ ((exp32 a).toNat - 1)

/-- A nonzero exponent field is at least one. -/
theorem one_le_toNat_of_ne_zero {w : Nat} {e : BitVec w} (h : e ≠ 0#w) : 1 ≤ e.toNat := by
  rcases Nat.eq_zero_or_pos e.toNat with h0 | h0
  · exact absurd (BitVec.eq_of_toNat_eq (by simpa using h0)) h
  · exact h0

theorem magnitude16_eq_units (h : Half) : magnitude16 h = (units16 h : ℚ) / 2 ^ 24 := by
  unfold magnitude16 units16
  split
  · norm_num [zpow_neg]; ring
  · next hne =>
    obtain ⟨k, hk⟩ := Nat.exists_eq_add_of_le (one_le_toNat_of_ne_zero hne)
    have he : ((exp16 h).toNat : ℤ) - 15 = (k : ℤ) - 14 := by omega
    rw [he, hk, zpow_sub₀ (by norm_num)]
    simp only [Nat.add_sub_cancel_left, zpow_natCast]
    push_cast
    norm_num
    ring

theorem magnitude32_eq_units (a : Single) : magnitude32 a = (units32 a : ℚ) / 2 ^ 149 := by
  unfold magnitude32 units32
  split
  · norm_num [zpow_neg]; ring
  · next hne =>
    obtain ⟨k, hk⟩ := Nat.exists_eq_add_of_le (one_le_toNat_of_ne_zero hne)
    have he : ((exp32 a).toNat : ℤ) - 127 = (k : ℤ) - 126 := by omega
    rw [he, hk, zpow_sub₀ (by norm_num)]
    simp only [Nat.add_sub_cancel_left, zpow_natCast]
    push_cast
    norm_num
    ring

end Sys2Proof.Machine
end

