-- ==== Sys2Proof/Tests/Slice0.lean ====
section
/-! SUPPORT. Tests. Expected values come from spec/95_test_vectors.md and from the rules named; each test is
one decoding, one transaction or one check. The `witness_` theorems show that the hypotheses of each
statement of Certificates/Slice0/Obligations.lean are met, each clause of it at a boundary. -/

namespace Sys2Proof.Tests

open Sys2Proof.Machine

/-! ### Well-formedness: what each check refuses -/

/-- R46: a number of 34 bits is no transaction word. -/
theorem test_wordFits_refuses_34_bits : wordFits 0x200000000 = false := by decide

/-- R46: the widest word is one. -/
theorem test_wordFits_accepts_33_bits : wordFits 0x1FFFFFFFF = true := by decide

/-- R47: `F16TOF32` takes a 16-bit literal. -/
theorem test_asmLine_refuses_wide_half : (AsmLine.mk .f16tof32 0x10000).wellFormed = false := by decide

/-- R47: `F32TOF16` takes a 32-bit literal. -/
theorem test_asmLine_refuses_wide_single : (AsmLine.mk .enc 0x100000000).wellFormed = false := by decide

/-- R7(a): a constant zero significand breaks the law of `ENC_NAN_MANT`. -/
theorem test_zero_encNanMant_is_unlawful :
    ¬ Params.EncNanLaw { Params.hardware with encNanMant := fun _ => 0#10 } :=
  fun h => h 0#23 rfl

/-- R7(b): a pattern without the operand's sign breaks the law of `DEC_NAN_BITS`. -/
theorem test_unsigned_decNanBits_is_unlawful :
    ¬ Params.DecNanLaw { Params.hardware with decNanBits := fun _ _ => 0x7FC00000#32 } :=
  fun h => absurd (h 1#1 0#10).2.2 (by decide)

/-- R45: no transaction is ill formed, so the check on `Instr` refuses none. -/
theorem test_every_instr_is_wellFormed (i : Instr) : i.wellFormed = true := by cases i <;> rfl

/-! ### Decoding: words written out bit by bit from R40 and R44 -/

/-- R44, R47: `op` is 0 and the rest is `0x3F800000`. -/
theorem test_decode_f32tof16 :
    decode 0b000111111100000000000000000000000#33 = .f32tof16 0x3F800000#32 := by decide

/-- R44, R47: `op` is 1, `din[31:16]` is 0 and `din[15:0]` is `0x3C00`. -/
theorem test_decode_f16tof32 :
    decode 0b100000000000000000011110000000000#33 = .f16tof32 0#16 0x3C00#16 := by decide

/-- 95_test_vectors.md section 2.3: the ignored bits hold `0xABCD`. -/
theorem test_decode_f16tof32_ignored_bits :
    decode 0b110101011110011011000000000000001#33 = .f16tof32 0xABCD#16 0x8001#16 := by decide

/-- 95_test_vectors.md section 2.3: a word of `F32TOF16` with the operand's top bit set. -/
theorem test_decode_f32tof16_negative_infinity :
    decode 0b011111111100000000000000000000000#33 = .f32tof16 0xFF800000#32 := by decide

/-- R46: what has more than 33 bits is rejected by name. -/
theorem test_decodeNat_rejects : decodeNat 0x200000000 = .error .notThirtyThreeBits := by rfl

/-- R47: the alias `DEC` assembles `DEC 0x3C00` to the word of the rule's example. -/
theorem test_assemble_dec : assemble ⟨.dec, 0x3C00⟩ = some 0x100003C00#33 := by decide

/-! ### One transaction -/

/-- What a step shows on `dout` and on the stand-alone converters, if it answers a next state. -/
def shown (o : Host.Outcome State Fault Refusal) :
    Option (BitVec 32 × BitVec 16 × BitVec 32) :=
  match o with
  | .next t => some (t.dout, t.f16Out, t.f32Out)
  | .fault _ => none
  | .refused _ => none

/-- R71: the carry of `2 - 2^-11`, a tie with `lsb = 1`, runs into the exponent. -/
theorem test_f32tof16_carry :
    shown (exec (decode 0x03FFFF000#33) State.reset) = some (0x4000#32, 0#16, 0#32) := by decide

/-- 90_conflicts.md C1: just above `2^-25` the result is the smallest subnormal, not zero. -/
theorem test_f32tof16_below_smallest_subnormal :
    shown (exec (decode 0x033000001#33) State.reset) = some (0x0001#32, 0#16, 0#32) := by decide

/-- 95_test_vectors.md section 2.1: `p = 8`, `k = 2`. -/
theorem test_f16tof32_subnormal :
    shown (exec (decode 0x100000155#33) State.reset) = some (0x37AA8000#32, 0#16, 0#32) := by
  decide

/-- 95_test_vectors.md section 2.3: a NaN loses its payload and `din[31:16]` does nothing. -/
theorem test_f16tof32_nan :
    shown (exec (decode 0x1ABCD7C01#33) State.reset) = some (0x7FC00000#32, 0#16, 0#32) := by
  decide

/-- Inputs on every block, and outputs that are not their function: no operation leaves such a state. -/
def unsettled : State where
  codec := { input := ⟨1#1, 0x3C00#32⟩, output := 7#32, pipe := [], edge := 0, draws := 0 }
  encoder := { input := 0x477FF000#32, output := 7#16, pipe := [], edge := 0, draws := 0 }
  decoder := { input := 0x0001#16, output := 7#32, pipe := [], edge := 0, draws := 0 }

/-- R49, R81, R63: a step evaluates all three blocks, whatever their outputs were. -/
theorem test_step_settles :
    shown (step unsettled) = some (0x3F800000#32, 0x7C00#16, 0x33800000#32) := by decide

/-- R17: a word placed on the ports is followed by `dout` at once. -/
theorem test_dout_follows_the_word :
    (State.reset.withFetchWord 40 0x03F800000).dout = 0x3C00#32 := by decide

/-- R17: a read at latency 0 is the function of the value now on the input, even there. -/
theorem test_read_is_live :
    unsettled.encoder.read 0 (enc Params.hardware) 5 = .next 0x7C00#16 := rfl

/-! ### The pipeline: 95_test_vectors.md P5, `CODEC_LATENCY = 2` -/

/-- An admitted implementation with two edges between an input and its output (R96). -/
def pipelined : Params := { Params.hardware with latency := 2 }

/-- An encoder of it at power-up. -/
def pipelinedEncoder : Block (BitVec 32) (BitVec 16) :=
  Block.powerUp 2 (enc pipelined) Config.freeF16Out 0 0#32

/-- The first defined output is in the cycle after edge 2: the input of edge 0 (R97). -/
theorem test_pipeline_first_output :
    (pipelinedEncoder.feed 2 (enc pipelined) Config.freeF16Out
      [0x3F800000#32, 0x33000001#32, 0x477FF000#32]).output = 0x3C00#16 := by decide

/-- The output in the cycle after edge 4 is the result of edge 2 (R96). -/
theorem test_pipeline_third_output :
    (pipelinedEncoder.feed 2 (enc pipelined) Config.freeF16Out
      [0x3F800000#32, 0x33000001#32, 0x477FF000#32, 0#32, 0#32]).output = 0x7C00#16 := by decide

/-! ### Witnesses: each statement's hypotheses are met -/

theorem witness_DecodeInvertsEncode :
    (Instr.f32tof16 0xFFFFFFFF#32).wellFormed = true ∧
      (Instr.f16tof32 0xFFFF#16 0xFFFF#16).wellFormed = true := by decide

/-- The widest literals that have a word, and the narrowest that have none. -/
theorem witness_AssemblerLinesEncodeTheirOperation :
    0xFFFFFFFF < 2 ^ 32 ∧ 0xFFFF < 2 ^ 16 ∧ 2 ^ 16 ≤ 0x10000 ∧ 2 ^ 32 ≤ 0x100000000 := by decide

theorem witness_StepRunsTheDecodedTransaction :
    decode (wordOf State.reset.op State.reset.din) = .f32tof16 0#32 ∧
      (Instr.f32tof16 0#32).wellFormed = true ∧ exec (.f32tof16 0#32) State.reset = .next State.reset ∧
      decodeTableWord 40 0x1FFFFFFFF = some (.f16tof32 0xFFFF#16 0xFFFF#16) := by
  refine ⟨by decide, by decide, ?_, by decide⟩
  rw [exec_eq, execWith_eq, transact_hardware]; exact congrArg _ (by decide)

theorem witness_StepComputesDoutFromOpAndDin :
    (State.reset.withFetchWord 40 0x1ABCD8001).op = 1#1 ∧
      (State.reset.withFetchWord 40 0x100008001).op = 1#1 ∧
      (State.reset.withFetchWord 40 0x1ABCD8001).din.extractLsb' 0 16 =
        (State.reset.withFetchWord 40 0x100008001).din.extractLsb' 0 16 ∧
      State.reset.op = 0#1 := by decide

theorem witness_ResultsIgnoreEarlierTransactions :
    State.reset.codec.input =
      ({ State.reset with codec := { State.reset.codec with output := 7#32 } } : State).codec.input ∧
      State.reset.f32In = ({ State.reset with
        codec := { State.reset.codec with output := 7#32 } } : State).f32In ∧
      State.reset.f16In = ({ State.reset with
        codec := { State.reset.codec with output := 7#32 } } : State).f16In := by decide

/-- A state in which 1.0 stands on the codec's inputs. -/
def loaded : State := State.reset.withFetchWord 40 0x03F800000

/-- The state its step leaves. -/
def stepped : State := loaded.delivered ⟨0#1, 0x3F800000#32⟩ 0x3C00#32

theorem step_loaded : step loaded = .next stepped := by
  rw [step_eq, stepWith_eq]; exact congrArg _ (by decide)

theorem witness_TransactionsAreIdempotent :
    step loaded = .next stepped ∧ exec (.f32tof16 0x3F800000#32) loaded = .next stepped := by
  refine ⟨step_loaded, ?_⟩
  rw [exec_eq, execWith_eq, transact_hardware]; exact congrArg _ (by decide)

/-- Two states with the same codec and other stand-alone converters, and two with another codec. -/
theorem witness_BlocksShareNothing :
    loaded.encoder = State.reset.encoder ∧ loaded.decoder = State.reset.decoder ∧
      loaded.codec ≠ State.reset.codec ∧
      loaded.codec = ({ loaded with encoder := pipelinedEncoder } : State).codec :=
  ⟨rfl, rfl, by decide, rfl⟩

theorem witness_UnknownInputsAreRefused :
    ∃ i, ∃ h : i < 33, (Vector.replicate 33 Level.unknown)[i] = .unknown ∨
      (Vector.replicate 33 Level.undriven)[i] = .undriven :=
  ⟨32, by decide, .inl (by decide)⟩

theorem witness_F16tof32Operation :
    0x7C01#16 ≤ 0x7C01#16 ∧ 0x7FFF#16 ≤ 0x7FFF#16 ∧ 0xFC01#16 ≤ 0xFC01#16 ∧ 0xFC01#16 ≤ 0xFFFF#16 := by
  decide

theorem witness_DecodeInfinity : exp16 0x7C00#16 = 31#5 ∧ mant16 0x7C00#16 = 0#10 := by decide

theorem witness_DecodeNan : exp16 0x7C01#16 = 31#5 ∧ mant16 0x7C01#16 ≠ 0#10 := by decide

theorem witness_DecodeSignedZero : exp16 0x8000#16 = 0#5 ∧ mant16 0x8000#16 = 0#10 := by decide

theorem witness_DecodeSubnormal :
    exp16 0x0001#16 = 0#5 ∧ (mant16 0x0001#16).getLsbD 0 = true ∧
      ∀ j, 0 < j → (mant16 0x0001#16).getLsbD j = false := by
  refine ⟨by decide, by decide, fun j hj => ?_⟩
  by_cases h : j < 10
  · interval_cases j <;> decide
  · exact BitVec.getLsbD_of_ge _ _ (by omega)

theorem witness_DecodeNormal :
    1#5 ≤ exp16 0x0400#16 ∧ exp16 0x0400#16 ≤ 30#5 ∧ 1#5 ≤ exp16 0x7BFF#16 ∧ exp16 0x7BFF#16 ≤ 30#5 := by
  decide

/-- A lawful implementation other than this hardware. -/
def otherParams : Params where
  encNanMant := fun _ => 1#10
  decNanBits := fun s _ => (s ++ 0xFF#8 ++ 1#23 : BitVec 32)
  latency := 1

theorem otherParams_lawful : otherParams.Lawful where
  encNan := fun _ => by show 1#10 ≠ 0#10; decide
  decNan := by
    intro s m
    show (s ++ 0xFF#8 ++ 1#23 : BitVec 32).extractLsb' 23 8 = _ ∧
      (s ++ 0xFF#8 ++ 1#23 : BitVec 32).extractLsb' 0 23 ≠ _ ∧
      (s ++ 0xFF#8 ++ 1#23 : BitVec 32).extractLsb' 31 1 = s
    revert s; decide

theorem witness_DecodeKeepsSign : ∃ p : Params, p.Lawful := ⟨otherParams, otherParams_lawful⟩

theorem witness_DecodeIsExact : class16 0xFBFF#16 ≠ .nan ∧ class16 0x8000#16 ≠ .nan := by decide

theorem witness_DecodeNeverSubnormal :
    otherParams.Lawful ∧ class16 0x0001#16 = .subnormal ∧ class16 0x7BFF#16 = .normal :=
  ⟨otherParams_lawful, by decide, by decide⟩

theorem witness_DecodeIsInjective :
    class16 0x0001#16 ≠ .nan ∧ dec otherParams 0x0001#16 = dec otherParams 0x0001#16 :=
  ⟨by decide, rfl⟩

theorem witness_EncodeUndoesDecode : class16 0x7C00#16 ≠ .nan ∧ class16 0x7C01#16 = .nan := by decide

theorem witness_F32tof16Operation :
    class32 0x80000000#32 = .zero ∧ class32 0x007FFFFF#32 = .subnormal ∧
      0x33000001#32 ≤ 0x337FFFFF#32 ∧ 0x387FE000#32 ≤ 0x387FFFFF#32 ∧
      (113#8 ≤ exp32 0x3F7FF000#32 ∧ exp32 0x3F7FF000#32 < 142#8 ∧
        (0x3F7FF000#32).extractLsb' 12 11 = 0x7FF#11) ∧
      0x477FF000#31 ≤ (0xC77FF000#32).extractLsb' 0 31 ∧
      (0xFF800000#32).extractLsb' 0 31 ≤ 0x7F800000#31 ∧ class32 0x7F800001#32 = .nan := by decide

theorem witness_EncodePathsByExponent :
    otherParams.EncNanLaw ∧
      ((exp32 0x7F800001#32).toNat = 255 ∧ mant32 0x7F800001#32 ≠ 0#23) ∧
      ((exp32 0x7F800000#32).toNat = 255 ∧ mant32 0x7F800000#32 = 0#23) ∧
      (exp32 0x47800000#32).toNat = 143 ∧ (exp32 0x7F7FFFFF#32).toNat = 254 ∧
      ((exp32 0x477FF000#32).toNat = 142 ∧
        (enc otherParams 0x477FF000#32).extractLsb' 0 15 = 0x7C00#15) ∧
      (exp32 0x38800000#32).toNat = 113 ∧
      ((exp32 0x387FE000#32).toNat = 112 ∧
        (enc otherParams 0x387FE000#32).extractLsb' 0 15 = 0x0400#15) ∧
      (exp32 0x33000000#32).toNat = 102 ∧ (exp32 0x32FFFFFF#32).toNat = 101 :=
  ⟨otherParams_lawful.encNan, by decide⟩

theorem witness_EncodeNan : exp32 0xFFFFFFFF#32 = 255#8 ∧ mant32 0xFFFFFFFF#32 ≠ 0#23 := by decide

theorem witness_EncodeInfinity : exp32 0xFF800000#32 = 255#8 ∧ mant32 0xFF800000#32 = 0#23 := by decide

theorem witness_EncodeOverflow :
    143#8 ≤ exp32 0x47800000#32 ∧ exp32 0x47800000#32 ≤ 254#8 ∧ exp32 0xFF7FFFFF#32 ≤ 254#8 ∧
      (value16 0x7BFF#16).isFinite = true := ⟨by decide, by decide, by decide, rfl⟩

/-- A tie with `lsb = 1` rounds up and one with `lsb = 0` does not. -/
theorem witness_EncodeNormal :
    (113#8 ≤ exp32 0x3F803000#32 ∧ exp32 0x3F803000#32 ≤ 142#8 ∧
      (mant32 0x3F803000#32).getLsbD 12 = true ∧ (mant32 0x3F803000#32).getLsbD 13 = true) ∧
    ((mant32 0x3F801001#32).getLsbD 12 = true ∧
      ∃ j, j < 12 ∧ (mant32 0x3F801001#32).getLsbD j = true) ∧
    (mant32 0x38800FFF#32).getLsbD 12 = false := ⟨by decide, ⟨by decide, 0, by decide⟩, by decide⟩

theorem witness_EncodeNormalCarry :
    (113#8 ≤ exp32 0x477FF000#32 ∧ exp32 0x477FF000#32 = 142#8 ∧
      (mant32 0x477FF000#32).extractLsb' 13 10 = 0x3FF#10 ∧
      (mant32 0x477FF000#32).getLsbD 12 = true) ∧ 30#5 ≤ 30#5 := by decide

/-- The tie of `u = -25` is even, one above it rounds up, and so does the carry at `k = 14`. -/
theorem witness_EncodeSubnormal :
    (102#8 ≤ exp32 0x33000000#32 ∧ exp32 0x33000000#32 ≤ 112#8 ∧ exp32 0x33000000#32 = 102#8) ∧
    (102#8 ≤ exp32 0x387FE000#32 ∧ exp32 0x387FE000#32 ≤ 112#8 ∧
      (1#1 ++ mant32 0x387FE000#32 : BitVec 24).getLsbD 13 = true) ∧
    ((1#1 ++ mant32 0x33000001#32 : BitVec 24).getLsbD 23 = true ∧
      ∃ j, j < 23 ∧ (1#1 ++ mant32 0x33000001#32 : BitVec 24).getLsbD j = true) :=
  ⟨by decide, by decide, by decide, 0, by decide⟩

theorem witness_EncodeUnderflow : exp32 0xB2FFFFFF#32 ≤ 101#8 ∧ exp32 0x00000000#32 ≤ 101#8 := by decide

theorem witness_EncodeZerosAndSubnormals :
    class32 0x80000000#32 = .zero ∧ class32 0x807FFFFF#32 = .subnormal := by decide

theorem witness_EncodeIsExactOnHalves :
    class16 0x8000#16 ≠ .nan ∧ value32 0x80000000#32 = value16 0x8000#16 := by
  refine ⟨by decide, ?_⟩
  have h1 : value32 0x80000000#32 = .finite true (magnitude32 0x80000000#32) := rfl
  have h2 : value16 0x8000#16 = .finite true (magnitude16 0x8000#16) := rfl
  have u1 : units32 0x80000000#32 = 0 := by decide
  have u2 : units16 0x8000#16 = 0 := by decide
  rw [h1, h2, magnitude32_eq_units, magnitude16_eq_units, u1, u2]; norm_num

/-- The real number of a positive finite binary32 pattern, in units. -/
theorem real_of_units {a : Single} {n : Nat} (hv : value32 a = .finite false (magnitude32 a))
    (hu : units32 a = n) : (value32 a).real = (n : ℚ) / 2 ^ 149 := by
  rw [hv, ← hu, ← magnitude32_eq_units]; rfl

/-- 65520 in units of 2^-149. -/
theorem real_65520 : (value32 0x477FF000#32).real = 65520 := by
  rw [real_of_units (n := 16773120 * 2 ^ 141) rfl (by decide)]; norm_num

/-- The largest pattern below 65520. -/
theorem real_below_65520 : (value32 0x477FEFFF#32).real < 65520 ∧ 0 ≤ (value32 0x477FEFFF#32).real := by
  rw [real_of_units (n := 16773119 * 2 ^ 141) rfl (by decide)]; norm_num

theorem witness_EncodeIsNearestTiesToEven :
    (value32 0x477FF000#32).isFinite = true ∧ 65520 ≤ |(value32 0x477FF000#32).real| ∧
      (value32 0x477FEFFF#32).isFinite = true ∧ |(value32 0x477FEFFF#32).real| < 65520 ∧
      (value16 0x7BFF#16).isFinite = true := by
  refine ⟨rfl, ?_, rfl, ?_, rfl⟩
  · rw [real_65520]; norm_num
  · rw [abs_of_nonneg real_below_65520.2]; exact real_below_65520.1

/-- The tie `2^-25`: 0 and `2^-24` are as near, and the even one is taken. -/
theorem witness_EncodeIsNearestTiesToEven_tie :
    (value32 0x33000000#32).isFinite = true ∧ |(value32 0x33000000#32).real| < 65520 ∧
      |(value16 (enc otherParams 0x33000000#32)).real - (value32 0x33000000#32).real| =
        |(value16 0x0001#16).real - (value32 0x33000000#32).real| ∧
      (value16 0x0001#16).real ≠ (value16 (enc otherParams 0x33000000#32)).real := by
  have hr : (value32 0x33000000#32).real = 1 / 2 ^ 25 := by
    rw [real_of_units (n := 2 ^ 124) rfl (by decide)]; norm_num
  have he : enc otherParams 0x33000000#32 = 0x0000#16 := by decide
  have h0 : (value16 0x0000#16).real = 0 := by
    have hv : value16 0x0000#16 = .finite false (magnitude16 0x0000#16) := rfl
    have hu : units16 0x0000#16 = 0 := by decide
    rw [hv]; show magnitude16 0x0000#16 = 0
    rw [magnitude16_eq_units, hu]; norm_num
  have h1 : (value16 0x0001#16).real = 1 / 2 ^ 24 := by
    have hv : value16 0x0001#16 = .finite false (magnitude16 0x0001#16) := rfl
    have hu : units16 0x0001#16 = 1 := by decide
    rw [hv]; show magnitude16 0x0001#16 = 1 / 2 ^ 24
    rw [magnitude16_eq_units, hu]; norm_num
  refine ⟨rfl, ?_, ?_, ?_⟩
  · rw [hr]; norm_num [abs_of_pos]
  · rw [he, hr, h0, h1]; norm_num [abs_of_pos]
  · rw [he, h0, h1]; norm_num

theorem witness_EncodeIsMonotone :
    class32 0x477FEFFF#32 ≠ .nan ∧ class32 0x7F800000#32 ≠ .nan ∧
      (value32 0x477FEFFF#32).le (value32 0x7F800000#32) :=
  ⟨by decide, by decide, rfl⟩

theorem witness_EncodeErrorIsHalfUlp :
    (value32 0x477FEFFF#32).isFinite = true ∧ |(value32 0x477FEFFF#32).real| < 65520 :=
  ⟨rfl, by rw [abs_of_nonneg real_below_65520.2]; exact real_below_65520.1⟩

theorem witness_NanExactlyFromNan : otherParams.Lawful ∧ class32 0x7F800001#32 = .nan :=
  ⟨otherParams_lawful, by decide⟩

/-- The ends of every row of R78, with the rule's results. -/
theorem witness_EncodeThresholds :
    enc otherParams 0x33000000#32 = 0x0000#16 ∧ enc otherParams 0x33000001#32 = 0x0001#16 ∧
      enc otherParams 0x33BFFFFF#32 = 0x0001#16 ∧ enc otherParams 0x33C00000#32 = 0x0002#16 ∧
      enc otherParams 0x34200000#32 = 0x0002#16 ∧ enc otherParams 0x387FE000#32 = 0x0400#16 ∧
      enc otherParams 0x38800000#32 = 0x0400#16 ∧ enc otherParams 0x477FE000#32 = 0x7BFF#16 ∧
      enc otherParams 0x477FEFFF#32 = 0x7BFF#16 ∧ enc otherParams 0x477FF000#32 = 0x7C00#16 ∧
      enc otherParams 0x7F800000#32 = 0x7C00#16 ∧ enc otherParams 0x7F800001#32 = 0x7C01#16 ∧
      enc otherParams 0x7FFFFFFF#32 = 0x7C01#16 ∧
      enc otherParams (0x80000000#32 ||| 0x33000001#32) = 0x8001#16 := by decide

theorem witness_ImplementationsAgreeOffNan : class32 0x7F800000#32 ≠ .nan ∧ class16 0x7C00#16 ≠ .nan := by
  decide

theorem witness_HardwareNansAreQuiet : class32 0xFF800001#32 = .nan ∧ class16 0x7C01#16 = .nan := by decide

theorem witness_HalfClassesByRange : 0x7FFF#16 ≤ 0x7FFF#16 ∧ class16 0x7FFF#16 = .nan := by decide

/-- The state at reset meets the invariant and takes a step. -/
theorem witness_StepKeepsHardwareInv :
    HardwareInv State.reset ∧ step State.reset = .next State.reset := by
  refine ⟨⟨by unfold Settled; decide, by unfold Block.Combinational; decide,
    by unfold Block.Combinational; decide, by unfold Block.Combinational; decide⟩, ?_⟩
  rw [step_eq, stepWith_eq]; exact congrArg _ (by decide)

theorem witness_HostActionsKeepHardwareInv :
    HardwareInv State.reset ∧ exec (.f32tof16 0x3F800000#32) State.reset =
      .next (State.reset.delivered ⟨0#1, 0x3F800000#32⟩ 0x3C00#32) := by
  refine ⟨witness_StepKeepsHardwareInv.1, ?_⟩
  rw [exec_eq, execWith_eq, transact_hardware]; exact congrArg _ (by decide)

theorem witness_HostActionsKeepHardwareInv_wires :
    HardwareInv State.reset ∧ ∃ t,
      driveLevels Params.hardware (Vector.replicate 33 Level.high) State.reset = .next t :=
  ⟨witness_StepKeepsHardwareInv.1, _, rfl⟩

theorem witness_InputsDetermineTheState :
    HardwareInv State.reset ∧ State.reset.op = State.reset.op ∧ State.reset.din = State.reset.din ∧
      State.reset.f32In = State.reset.f32In ∧ State.reset.f16In = State.reset.f16In :=
  ⟨witness_StepKeepsHardwareInv.1, rfl, rfl, rfl, rfl⟩

/-- Power-up of the pipelined implementation. -/
def pipelinedStart : State := State.powerUp pipelined 0 ⟨0#1, 0#32⟩ 0#32 0#16

theorem witness_pipelineInv : PipelineInv pipelined pipelinedStart :=
  ⟨⟨rfl, fun h => absurd h (by decide), fun _ _ => ⟨0, by decide, rfl⟩⟩,
    ⟨rfl, fun h => absurd h (by decide), fun _ _ => ⟨0, by decide, rfl⟩⟩,
    ⟨rfl, fun h => absurd h (by decide), fun _ _ => ⟨0, by decide, rfl⟩⟩⟩

theorem witness_HostActionsKeepPipelineInv : PipelineInv pipelined pipelinedStart := witness_pipelineInv

theorem witness_StepKeepsPipelineInv :
    PipelineInv pipelined pipelinedStart ∧ ∃ t, stepWith pipelined pipelinedStart = .next t :=
  ⟨witness_pipelineInv, _, stepWith_eq _ _⟩

/-- The run of an implementation from `s` in which the host drives the same inputs before every edge. -/
def runFrom (p : Params) (s : State) (x : CodecIn) (a : Single) (h : Half) : Nat → State
  | 0 => s
  | n + 1 =>
    let t := (runFrom p s x a h n).drive p x a h
    (t.transact p t.codec.input).clockConverters p

theorem runFrom_hostRun (p : Params) (s : State) (x : CodecIn) (a : Single) (h : Half) :
    HostRun p (runFrom p s x a h) (fun _ => x) (fun _ => a) (fun _ => h) :=
  fun _ => stepWith_eq _ _

theorem witness_PipelineDeliversAfterLatency :
    HostRun pipelined (runFrom pipelined pipelinedStart ⟨1#1, 1#32⟩ 1#32 1#16)
      (fun _ => ⟨1#1, 1#32⟩) (fun _ => 1#32) (fun _ => 1#16) := runFrom_hostRun _ _ _ _ _

theorem witness_WindowOutputsAreFree :
    pipelined.latency ≠ 0 ∧
      HostRun pipelined (runFrom pipelined (State.reset.resetPulse pipelined) ⟨1#1, 1#32⟩ 1#32 1#16)
        (fun _ => ⟨1#1, 1#32⟩) (fun _ => 1#32) (fun _ => 1#16) ∧
      runFrom pipelined (State.reset.resetPulse pipelined) ⟨1#1, 1#32⟩ 1#32 1#16 0 =
        State.reset.resetPulse pipelined ∧
      runFrom pipelined pipelinedStart ⟨1#1, 1#32⟩ 1#32 1#16 0 =
        State.powerUp pipelined 0 ⟨0#1, 0#32⟩ 0#32 0#16 :=
  ⟨by decide, runFrom_hostRun _ _ _ _ _, rfl, rfl⟩

theorem witness_EarlyReadIsStuck :
    pipelined.latency ≠ 0 ∧ PipelineInv pipelined (runFrom pipelined pipelinedStart ⟨1#1, 1#32⟩ 1#32 1#16 0) ∧
      (runFrom pipelined pipelinedStart ⟨1#1, 1#32⟩ 1#32 1#16 0).codec.edge = 0 ∧
      (runFrom pipelined pipelinedStart ⟨1#1, 1#32⟩ 1#32 1#16 0).encoder.edge = 0 ∧
      (runFrom pipelined pipelinedStart ⟨1#1, 1#32⟩ 1#32 1#16 0).decoder.edge = 0 ∧
      HostRun pipelined (runFrom pipelined pipelinedStart ⟨1#1, 1#32⟩ 1#32 1#16)
        (fun _ => ⟨1#1, 1#32⟩) (fun _ => 1#32) (fun _ => 1#16) :=
  ⟨by decide, witness_pipelineInv, rfl, rfl, rfl, runFrom_hostRun _ _ _ _ _⟩

end Sys2Proof.Tests
end

section
/-! PROOFS. The parameters of 00_scope.md R7: this hardware's values meet their laws, and off NaN no
parameter reaches a result (93_implementation_defined.md part 1). -/

namespace Sys2Proof.Machine

/-! ### The class of a NaN, by its fields -/

theorem class16_eq_nan_iff (h : Half) : class16 h = .nan ↔ exp16 h = 31#5 ∧ mant16 h ≠ 0#10 := by
  unfold class16
  split_ifs with he hm <;> simp [*]

theorem class32_eq_nan_iff (a : Single) : class32 a = .nan ↔ exp32 a = 255#8 ∧ mant32 a ≠ 0#23 := by
  unfold class32
  split_ifs with he hm <;> simp [*]

/-! ### Off NaN the parameters reach no result -/

/-- The NaN test is the first of R64, and `ENC_NAN_MANT` stands in its branch alone. -/
theorem enc_params_irrelevant (p q : Params) {a : Single} (ha : class32 a ≠ .nan) :
    enc p a = enc q a := by
  have notNan : ¬ (exp32 a = 255#8 ∧ mant32 a ≠ 0#23) := fun c => ha ((class32_eq_nan_iff a).mpr c)
  exact (if_neg notNan).trans (if_neg notNan).symm

/-- An infinity leaves R53 by the first test; every other operand off NaN passes the test `e16 = 31`,
in whose branch alone `DEC_NAN_BITS` stands. -/
theorem dec_params_irrelevant (p q : Params) {h : Half} (hh : class16 h ≠ .nan) :
    dec p h = dec q h := by
  by_cases he : exp16 h = 31#5
  · have inf : exp16 h = 31#5 ∧ mant16 h = 0#10 :=
      ⟨he, by_contra fun hm => hh ((class16_eq_nan_iff h).mpr ⟨he, hm⟩)⟩
    exact (if_pos inf).trans (if_pos inf).symm
  · have notInf : ¬ (exp16 h = 31#5 ∧ mant16 h = 0#10) := fun c => he c.1
    have pastNan (r : Params) : dec r h =
        if exp16 h = 0#5 ∧ mant16 h = 0#10 then compose32 (sign16 h) 0#8 0#23
        else if exp16 h = 0#5 then decSubnormal (sign16 h) (mant16 h)
        else decNormal (sign16 h) (exp16 h) (mant16 h) := (if_neg notInf).trans (if_neg he)
    exact (pastNan p).trans (pastNan q).symm

/-- Settles O48: the branches that name a parameter are those of a NaN operand. -/
theorem implementationsAgreeOffNan : Obligations.ImplementationsAgreeOffNan :=
  ⟨fun p q _ ha => enc_params_irrelevant p q ha, fun p q _ hh => dec_params_irrelevant p q hh⟩

/-! ### This hardware's parameters -/

/-- `ENC_NAN_MANT` sets the quiet bit of the significand (R7(a), R67). -/
@[simp] theorem encNanMantDefault_getLsbD_nine (m : BitVec 23) :
    (encNanMantDefault m).getLsbD 9 = true := by
  simp [encNanMantDefault]

/-- `DEC_NAN_BITS` put together from its fields (R7(b), R55). -/
theorem decNanBitsDefault_eq_compose32 (s : BitVec 1) (m : BitVec 10) :
    decNanBitsDefault s m = compose32 s 0xFF#8 0x400000#23 := by
  unfold decNanBitsDefault
  revert s
  decide

/-- A significand with its quiet bit set is nonzero. -/
theorem hardware_encNanLaw : Params.hardware.EncNanLaw := by
  intro m hm
  have quiet : (Params.hardware.encNanMant m).getLsbD 9 = true := encNanMantDefault_getLsbD_nine m
  simp [hm] at quiet

/-- The three fields of the law are those the pattern is put together from. -/
theorem hardware_decNanLaw : Params.hardware.DecNanLaw := by
  intro s m
  have bits : Params.hardware.decNanBits s m = compose32 s 0xFF#8 0x400000#23 :=
    decNanBitsDefault_eq_compose32 s m
  rw [bits]
  exact ⟨exp32_compose32 s _ _,
    fun hm => absurd ((mant32_compose32 s 0xFF#8 0x400000#23).symm.trans hm) (by decide),
    sign32_compose32 s _ _⟩

/-- Settles O47: the defaults of R7 hold by definition, and the two laws by the fields of the patterns. -/
theorem hardwareParametersAreLawful : Obligations.HardwareParametersAreLawful :=
  ⟨⟨hardware_encNanLaw, hardware_decNanLaw⟩, hardware_latency, fun _ => rfl, fun _ _ => rfl⟩

end Sys2Proof.Machine
end

section
/-! PROOFS. This hardware between transactions: every output is the function of the input now on its
block (10_state.md R17), and the block holds nothing else (R13). -/

namespace Sys2Proof.Machine

/-! ### Latency 0 counts nothing and keeps no sample -/

/-- The evaluation of latency 0 fills no pipeline, passes no edge and draws no free value (R95). -/
theorem Block.Combinational.clock_zero {ι ο : Type} {b : Block ι ο} (hb : b.Combinational)
    (f : ι → ο) (free : Nat → ο) : (b.clock 0 f free).Combinational := by
  obtain ⟨-, edge, draws⟩ := hb
  rw [Block.clock_zero]
  exact ⟨rfl, edge, draws⟩

/-- Presenting an input does not touch what `Combinational` speaks of, so a transaction keeps it too. -/
theorem Block.Combinational.transact_zero {ι ο : Type} {b : Block ι ο} (hb : b.Combinational)
    (f : ι → ο) (free : Nat → ο) (x : ι) : (b.transact 0 f free x).Combinational := by
  have presented : Block.Combinational { b with input := x } := hb
  exact presented.clock_zero f free

/-- A combinational block whose output follows its input is determined by that input: it is the block
as it powers up on it (R23). -/
theorem Block.Combinational.eq_powerUp {ι ο : Type} {b : Block ι ο} (hb : b.Combinational)
    {f : ι → ο} (hout : b.output = f b.input) (free : Nat → ο) :
    b = Block.powerUp 0 f free 0 b.input := by
  obtain ⟨input, output, pipe, edge, draws⟩ := b
  obtain ⟨rfl, rfl, rfl⟩ := hb
  rw [Block.powerUp_zero, ← hout]

/-! ### The outputs follow the inputs, from every state -/

/-- A step evaluates every block on the input it has, and changes no input. -/
theorem step_eq_next (s : State) :
    step s = .next ((s.transact Params.hardware s.codec.input).clockConverters Params.hardware) := by
  rw [step_eq, stepWith_eq]

/-- A transaction delivers the function of the ports it presents (R49). -/
theorem exec_eq_delivered (i : Instr) (s : State) :
    exec i s = .next (s.delivered (inputOf i) (codecOut Params.hardware (inputOf i))) := by
  rw [exec_eq, execWith_eq, transact_hardware]

/-- By `Block.drive_zero`, whatever the outputs were before. -/
theorem settled_drive (x : CodecIn) (a : Single) (h : Half) (s : State) :
    Settled Params.hardware (s.drive Params.hardware x a h) :=
  ⟨rfl, rfl, rfl⟩

/-- By `Block.clock_zero` for each of the three blocks, whatever the outputs were before. -/
theorem settled_clockConverters_transact (x : CodecIn) (s : State) :
    Settled Params.hardware ((s.transact Params.hardware x).clockConverters Params.hardware) :=
  ⟨rfl, rfl, rfl⟩

/-- Settles O59: at latency 0 each operation computes the output from the input it leaves, and a read
computes it afresh. -/
theorem outputsFollowInputs : Obligations.OutputsFollowInputs := by
  refine ⟨settled_drive, fun w s => ?placed, fun i s => ?transaction, fun s => ?step, fun s n => ?read⟩
  case placed => exact congrArg Block.output (Block.drive_zero _ s.codec _)
  case transaction => exact ⟨_, exec_eq_delivered i s, State.delivered_dout _ _ _⟩
  case step => exact ⟨_, step_eq_next s, settled_clockConverters_transact _ s, rfl, rfl, rfl⟩
  case read => exact ⟨Block.read_zero _ _ n, Block.read_zero _ _ n, Block.read_zero _ _ n⟩

/-! ### The invariant -/

/-- Settles O49: a step settles the outputs from any state, and at latency 0 it leaves the pipelines
empty and the counters alone. -/
theorem stepKeepsHardwareInv : Obligations.StepKeepsHardwareInv := by
  rintro s t ⟨-, codec, encoder, decoder⟩ hst
  obtain rfl := Host.Outcome.next.inj ((step_eq_next s).symm.trans hst)
  exact ⟨settled_clockConverters_transact _ s, codec.transact_zero _ Config.freeDout _,
    encoder.clock_zero _ Config.freeF16Out, decoder.clock_zero _ Config.freeF32Out⟩

/-- What the invariant leaves open is the inputs alone: the state is that of power-up on them. -/
theorem HardwareInv.eq_powerUp {s : State} (hs : HardwareInv s) :
    s = State.powerUp Params.hardware 0 s.codec.input s.f32In s.f16In := by
  obtain ⟨⟨dout, f16Out, f32Out⟩, codec, encoder, decoder⟩ := hs
  have codecEq := codec.eq_powerUp dout Config.freeDout
  have encoderEq := encoder.eq_powerUp f16Out Config.freeF16Out
  have decoderEq := decoder.eq_powerUp f32Out Config.freeF32Out
  exact congr (congrArg₂ State.mk codecEq encoderEq) decoderEq

/-- Settles O58: both states are the power-up state on the same inputs. -/
theorem inputsDetermineTheState : Obligations.InputsDetermineTheState := by
  intro s s' hs hs' op din f32In f16In
  have input : s.codec.input = s'.codec.input := congrArg₂ CodecIn.mk op din
  calc s = State.powerUp Params.hardware 0 s.codec.input s.f32In s.f16In := hs.eq_powerUp
    _ = State.powerUp Params.hardware 0 s'.codec.input s'.f32In s'.f16In := by
      rw [input, f32In, f16In]
    _ = s' := hs'.eq_powerUp.symm

end Sys2Proof.Machine
end

section
/-! PROOFS. No memory between transactions (20_memory.md R27, R28) and nothing shared between the blocks
(R33): a transaction runs on the codec alone, and a step runs each block on itself alone. -/

namespace Sys2Proof.Machine

/-! ### A transaction presents its own ports to the codec, and leaves the converters alone -/

/-- The ports after a transaction are those it presents, at every latency. -/
@[simp] theorem State.transact_input (p : Params) (x : CodecIn) (s : State) :
    (s.transact p x).codec.input = x :=
  Block.clock_input _ _ _ _

/-- The frame of a transaction, said once for both rows: the converters as they were, and its own `op` and
`din` on the ports. -/
theorem execWith_frame (p : Params) (i : Instr) (s : State) : ∃ t, execWith p i s = .next t ∧
    t.encoder = s.encoder ∧ t.decoder = s.decoder ∧ t.op = i.op ∧ t.din = i.din := by
  have ports : (s.transact p (inputOf i)).codec.input = inputOf i := State.transact_input p _ s
  exact ⟨_, execWith_eq p i s, State.transact_encoder s _ p, State.transact_decoder s _ p,
    congrArg CodecIn.op ports, congrArg CodecIn.din ports⟩

/-- Settles O9: both rows have the one frame, each with the `op` and `din` of its own word. -/
theorem transactionFrame : Obligations.TransactionFrame :=
  ⟨fun p a => execWith_frame p (.f32tof16 a), fun p x h => execWith_frame p (.f16tof32 x h)⟩

/-! ### A step is one transaction of each block on that block's own input -/

/-- The codec's transaction is on the input it already has, so a step clocks the three blocks one by one. -/
theorem stepWith_eq_clock (p : Params) (s : State) :
    stepWith p s = .next
      { codec := s.codec.clock p.latency (codecOut p) Config.freeDout
        encoder := s.encoder.clock p.latency (enc p) Config.freeF16Out
        decoder := s.decoder.clock p.latency (dec p) Config.freeF32Out } :=
  stepWith_eq p s

/-- Settles O12: each block after the step is that block clocked. -/
theorem blocksShareNothing : Obligations.BlocksShareNothing := fun p s s' =>
  ⟨_, _, stepWith_eq_clock p s, stepWith_eq_clock p s',
    congrArg (Block.clock p.latency (codecOut p) Config.freeDout),
    congrArg (Block.clock p.latency (enc p) Config.freeF16Out),
    congrArg (Block.clock p.latency (dec p) Config.freeF32Out)⟩

/-! ### On this hardware the last transaction is all that is seen -/

/-- A delivery replaces all that an earlier one left. -/
@[simp] theorem State.delivered_delivered (s : State) (x y : CodecIn) (d e : BitVec 32) :
    (s.delivered x d).delivered y e = s.delivered y e := rfl

/-- An earlier transaction changes nothing of a later one (R28). -/
theorem exec_delivered (i : Instr) (s : State) (x : CodecIn) (d : BitVec 32) :
    exec i (s.delivered x d) = exec i s := by
  rw [exec_eq_delivered, exec_eq_delivered, State.delivered_delivered]

/-- After a step each output is the function of the input its block had before it. -/
theorem step_outputs (s : State) : ∃ t, step s = .next t ∧
    t.dout = codecOut Params.hardware s.codec.input ∧
    t.f16Out = enc Params.hardware s.f32In ∧ t.f32Out = dec Params.hardware s.f16In :=
  ⟨_, step_eq_next s, settled_clockConverters_transact _ s⟩

/-- Settles O10: a delivery is overwritten by the next, and a step computes its outputs from the inputs
alone. -/
theorem resultsIgnoreEarlierTransactions : Obligations.ResultsIgnoreEarlierTransactions := by
  refine ⟨fun i j s => ⟨_, exec_eq_delivered j s, exec_delivered i s _ _⟩,
    fun s s' input f32In f16In => ?_⟩
  obtain ⟨t, hst, dout, f16Out, f32Out⟩ := step_outputs s
  obtain ⟨t', hst', dout', f16Out', f32Out'⟩ := step_outputs s'
  exact ⟨t, t', hst, hst', by rw [dout, dout', input], by rw [f16Out, f16Out', f32In],
    by rw [f32Out, f32Out', f16In]⟩

/-! ### Repetition -/

/-- Evaluating a combinational block again changes nothing: its input is the same and its pipeline empty. -/
@[simp] theorem Block.clock_zero_clock_zero {ι ο : Type} (f : ι → ο) (free : Nat → ο) (b : Block ι ο) :
    (b.clock 0 f free).clock 0 f free = b.clock 0 f free := by
  rw [Block.clock_zero, Block.clock_zero]

/-- A step of this hardware clocks each of the three blocks at latency 0. -/
theorem step_eq_clock_zero (s : State) :
    step s = .next
      { codec := s.codec.clock 0 (codecOut Params.hardware) Config.freeDout
        encoder := s.encoder.clock 0 (enc Params.hardware) Config.freeF16Out
        decoder := s.decoder.clock 0 (dec Params.hardware) Config.freeF32Out } := by
  rw [step_eq, stepWith_eq_clock, hardware_latency]

/-- Settles O11: a transaction forgets its own earlier run as it does any other, and a step evaluates
every block again on an unchanged input. -/
theorem transactionsAreIdempotent : Obligations.TransactionsAreIdempotent := by
  refine ⟨fun i s t hexec => ?transaction, fun s t hst => ?step⟩
  case transaction =>
    obtain rfl := Host.Outcome.next.inj ((exec_eq_delivered i s).symm.trans hexec)
    rw [exec_delivered, hexec]
  case step =>
    obtain rfl := Host.Outcome.next.inj ((step_eq_clock_zero s).symm.trans hst)
    simp only [step_eq_clock_zero, Block.clock_zero_clock_zero]

end Sys2Proof.Machine
end

section
/-! PROOFS. The transaction word (30_encoding.md): bit 32 alone selects the row (R44, R45), the decoder and
the encoder undo each other (R40), and the constants of R38 correspond. -/

namespace Sys2Proof.Machine

/-! ### The word and its ports -/

/-- A word is put together from its ports (R40). -/
@[simp] theorem wordOf_fields (t : TWord) : wordOf (wordOp t) (wordDin t) = t :=
  (BitVec.extractLsb'_append_extractLsb'_eq_extractLsb' rfl).trans BitVec.extractLsb'_eq_self

/-- The mask of R44 keeps `op` and clears `din`. -/
theorem and_rowMask (t : TWord) : t &&& rowMask = wordOf (wordOp t) 0#32 := by
  have mask : rowMask = wordOf 1#1 0#32 := by decide
  have op : wordOp t &&& 1#1 = wordOp t := BitVec.and_allOnes
  have din : wordDin t &&& 0#32 = 0#32 := BitVec.and_zero
  calc t &&& rowMask
    _ = wordOf (wordOp t) (wordDin t) &&& wordOf 1#1 0#32 := by rw [wordOf_fields, mask]
    _ = wordOf (wordOp t &&& 1#1) (wordDin t &&& 0#32) := BitVec.and_append
    _ = wordOf (wordOp t) 0#32 := by rw [op, din]

/-! ### The decoder, a row at a time -/

theorem decode_of_wordOp_zero {t : TWord} (h : wordOp t = 0#1) : decode t = .f32tof16 (wordDin t) :=
  if_pos h

theorem decode_of_wordOp_one {t : TWord} (h : wordOp t = 1#1) :
    decode t = .f16tof32 ((wordDin t).extractLsb' 16 16) ((wordDin t).extractLsb' 0 16) :=
  if_neg (by rw [h]; decide)

@[simp] theorem decode_op (t : TWord) : (decode t).op = wordOp t :=
  congrArg CodecIn.op (inputOf_decode t)

@[simp] theorem decode_din (t : TWord) : (decode t).din = wordDin t :=
  congrArg CodecIn.din (inputOf_decode t)

/-! ### Decoding an encoded transaction -/

/-- By the row: the encoded word has the row's `op`, and its `din` is the operand. -/
theorem decode_encode (i : Instr) : decode (encode i) = i := by
  cases i with
  | f32tof16 a =>
    obtain ⟨op, din⟩ := Laws.EncodedFields.f32tof16 a rfl
    rw [decode_of_wordOp_zero op, din]
    rfl
  | f16tof32 x h =>
    obtain ⟨op, (din : wordDin (encode (.f16tof32 x h)) = x ++ h)⟩ :=
      Laws.EncodedFields.f16tof32 x h rfl
    rw [decode_of_wordOp_one op, din, BitVec.extractLsb'_append_eq_left,
      BitVec.extractLsb'_append_eq_right]

/-- Settles O2: no transaction is ill formed (R45), so the hypothesis is not needed. -/
theorem decodeInvertsEncode : Obligations.DecodeInvertsEncode :=
  fun i _ => decode_encode i

/-! ### Encoding a decoded word, and its row -/

/-- Both rows encode to `{op, din}` (R40). -/
theorem encode_eq_wordOf (i : Instr) : encode i = wordOf i.op i.din := by
  cases i <;> rfl

/-- The match of a row is its `op` above a cleared `din` (R44). -/
theorem rowMatch_eq_wordOf (i : Instr) : rowMatch i = wordOf i.op 0#32 := by
  cases i with
  | f32tof16 _ => exact (by decide : (0x000000000#33 : TWord) = wordOf 0#1 0#32)
  | f16tof32 _ _ => exact (by decide : (0x100000000#33 : TWord) = wordOf 1#1 0#32)

/-- The transaction a word selects presents the word's own ports, which make up the word. -/
theorem encode_decode (t : TWord) : encode (decode t) = t := by
  rw [encode_eq_wordOf, decode_op, decode_din, wordOf_fields]

/-- Under the mask a word is the match of the row it decodes to. -/
theorem and_rowMask_eq_rowMatch_decode (t : TWord) : t &&& rowMask = rowMatch (decode t) := by
  rw [and_rowMask, rowMatch_eq_wordOf, decode_op]

/-- Settles O3: the word under the mask is the match of its own row, so it is that of `i` exactly when the
two rows have one match. -/
theorem encodeInvertsDecode : Obligations.EncodeInvertsDecode :=
  fun t => ⟨encode_decode t, fun i => by rw [and_rowMask_eq_rowMatch_decode]⟩

/-! ### Every word selects one row -/

/-- The fields of `din` are those of the word, which has `din` at its foot (R40, R42). -/
theorem wordDin_extractLsb' (t : TWord) {start len : Nat} (h : start + len ≤ 32) :
    (wordDin t).extractLsb' start len = t.extractLsb' start len := by
  conv_rhs => rw [← wordOf_fields t]
  exact (BitVec.extractLsb'_append_eq_of_add_le h).symm

/-- `F16TOF32` computes from `din[15:0]` alone (R45). -/
theorem codecOut_f16tof32 (p : Params) (x : BitVec 16) (h : Half) :
    codecOut p (inputOf (.f16tof32 x h)) = dec p h :=
  congrArg (dec p) (BitVec.extractLsb'_append_eq_right (a := x))

/-- Settles O4: bit 32 picks the row, `exec` delivers for every transaction, and `DEC` sees the lower half
of `din` only. -/
theorem everyWordSelectsOneRow : Obligations.EveryWordSelectsOneRow := by
  refine ⟨fun t => ?row, fun t s => ⟨_, exec_eq_delivered (decode t) s⟩, fun x y h s =>
    ⟨_, _, exec_eq_delivered _ s, exec_eq_delivered _ s, ?ignored⟩⟩
  case row =>
    rcases BitVec.eq_zero_or_eq_one (wordOp t) with op | op
    · have row := decode_of_wordOp_zero op
      exact .inl ⟨by rw [and_rowMask_eq_rowMatch_decode, row, rowMatch], row⟩
    · have row := decode_of_wordOp_one op
      rw [wordDin_extractLsb' t (by decide), wordDin_extractLsb' t (by decide)] at row
      exact .inr ⟨by rw [and_rowMask_eq_rowMatch_decode, row, rowMatch], row⟩
  case ignored =>
    rw [State.delivered_dout, State.delivered_dout, codecOut_f16tof32, codecOut_f16tof32]

/-! ### The constants -/

/-- Settles O46: the ten quantities of R38 one by one; each pair is closed, and both conversions of it are
evaluated. -/
theorem constantsCorrespond : Obligations.ConstantsCorrespond := by
  unfold Obligations.ConstantsCorrespond
  simp only [List.forall_mem_cons, List.not_mem_nil, false_imp_iff, implies_true, and_true]
  refine ⟨?zero, ?negZero, ?minSubnormal, ?maxSubnormal, ?minNormal, ?one, ?two, ?maxFinite, ?infinity,
    ?negInfinity⟩ <;> decide

end Sys2Proof.Machine
end

section
/-! PROOFS. The top level in a step (40_half_float_codec.md R49): a step runs the transaction on the ports,
and `dout` is the function of `op` and `din` that the transaction's row names. -/

namespace Sys2Proof.Machine

/-! ### The selection by `op` -/

theorem codecOut_of_op_zero (p : Params) {x : CodecIn} (h : x.op = 0#1) :
    codecOut p x = (enc p x.din).setWidth 32 :=
  if_pos h

theorem codecOut_of_op_one (p : Params) {x : CodecIn} (h : x.op = 1#1) :
    codecOut p x = dec p (x.din.extractLsb' 0 16) :=
  if_neg (by rw [h]; decide)

/-- A binary16 result stands in the lower half of the bus, below zeros (30_encoding.md R43). -/
theorem zext_half_upper_eq_zero (h : Half) : (h.setWidth 32 : BitVec 32).extractLsb' 16 16 = 0#16 := by
  have zext : (h.setWidth 32 : BitVec 32) = 0#16 ++ h := BitVec.setWidth_eq_append (by decide)
  rw [zext, BitVec.extractLsb'_append_eq_left]

/-- Settles O7: a step leaves `codecOut` of the ports on `dout`, and each value of `op` selects its row. -/
theorem stepComputesDoutFromOpAndDin : Obligations.StepComputesDoutFromOpAndDin := by
  refine ⟨fun s => ?rows, fun s s' op op' din => ?ignored⟩
  case rows =>
    obtain ⟨t, hst, dout, -, -⟩ := step_outputs s
    refine ⟨t, hst, fun op => ?_, fun op => dout.trans (codecOut_of_op_one _ op)⟩
    have encoded := dout.trans (codecOut_of_op_zero _ op)
    exact ⟨encoded, encoded ▸ zext_half_upper_eq_zero _⟩
  case ignored =>
    obtain ⟨t, hst, dout, -, -⟩ := step_outputs s
    obtain ⟨t', hst', dout', -, -⟩ := step_outputs s'
    refine ⟨t, t', hst, hst', ?_⟩
    calc t.dout
      _ = dec Params.hardware (s.din.extractLsb' 0 16) := dout.trans (codecOut_of_op_one _ op)
      _ = dec Params.hardware (s'.din.extractLsb' 0 16) := by rw [din]
      _ = t'.dout := (dout'.trans (codecOut_of_op_one _ op')).symm

/-! ### The transaction on the ports -/

/-- The transaction on the ports runs first, and the stand-alone converters after it. -/
theorem step_of_exec_eq_next {s t : State} (h : exec (decode s.word) s = .next t) :
    step s = .next (t.clockConverters Params.hardware) := by
  unfold step; rw [h]

/-- At latency 0 the converters' clocking is their evaluation, by `Block.clock_zero` for each of them. -/
theorem clockConverters_hardware (t : State) :
    t.clockConverters Params.hardware = { t with
      encoder := { t.encoder with output := enc Params.hardware t.encoder.input, pipe := [] }
      decoder := { t.decoder with output := dec Params.hardware t.decoder.input, pipe := [] } } :=
  rfl

/-- A number the table's decoder reads is read as its 33 bits (R46). -/
theorem decode_of_decodeTableWord {nbits w : Nat} {i : Instr} (h : decodeTableWord nbits w = some i) :
    decode (BitVec.ofNat 33 w) = i := by
  unfold decodeTableWord decodeNat at h
  by_cases fits : wordFits w = true
  · rw [if_pos fits] at h
    exact Option.some.inj h
  · rw [if_neg fits] at h
    exact absurd h.symm (Option.some_ne_none i)

/-- Settles O6: the word on the ports is the transaction's own, and a placed word stands on the ports. -/
theorem stepRunsTheDecodedTransaction : Obligations.StepRunsTheDecodedTransaction := by
  refine ⟨?step, fun s nbits w i hw => ?placed⟩
  case step =>
    rintro s i t rfl - hexec
    rw [step_of_exec_eq_next hexec, clockConverters_hardware]
  case placed =>
    unfold State.withFetchWord
    rw [State.withWord_op, State.withWord_din, wordOf_fields, decode_of_decodeTableWord hw]

end Sys2Proof.Machine
end

section
/-! PROOFS. What the host does to the ports (40_half_float_codec.md R51) and to the reset
(70_reset_and_hazards.md R93, R97) keeps the invariant of this hardware and that of the pipelines. -/

namespace Sys2Proof.Machine

/-! ### The invariant of this hardware -/

/-- A change of the input waits for an edge: it samples, counts and draws nothing. -/
theorem Block.Combinational.drive {ι ο : Type} {b : Block ι ο} (hb : b.Combinational) (L : Nat)
    (f : ι → ο) (x : ι) : (b.drive L f x).Combinational :=
  hb

/-- An action on the codec alone keeps the invariant when the codec is left combinational, with the function
of its input on its output. -/
theorem HardwareInv.with_codec {s : State} (hs : HardwareInv s) {c : Block CodecIn (BitVec 32)}
    (dout : c.output = codecOut Params.hardware c.input) (hc : c.Combinational) :
    HardwareInv { s with codec := c } := by
  obtain ⟨⟨-, f16Out, f32Out⟩, -, encoder, decoder⟩ := hs
  exact ⟨⟨dout, f16Out, f32Out⟩, hc, encoder, decoder⟩

theorem HardwareInv.codec_combinational {s : State} (hs : HardwareInv s) : s.codec.Combinational := by
  obtain ⟨-, codec, -, -⟩ := hs
  exact codec

theorem HardwareInv.transact {s : State} (hs : HardwareInv s) (x : CodecIn) :
    HardwareInv (s.transact Params.hardware x) :=
  hs.with_codec rfl (hs.codec_combinational.transact_zero _ Config.freeDout x)

theorem HardwareInv.withWord {s : State} (hs : HardwareInv s) (w : TWord) :
    HardwareInv (s.withWord Params.hardware w) :=
  hs.with_codec rfl (hs.codec_combinational.drive _ _ _)

theorem HardwareInv.drive {s : State} (hs : HardwareInv s) (x : CodecIn) (a : Single) (h : Half) :
    HardwareInv (s.drive Params.hardware x a h) := by
  obtain ⟨-, codec, encoder, decoder⟩ := hs
  exact ⟨settled_drive x a h s, codec.drive _ _ x, encoder.drive _ _ a, decoder.drive _ _ h⟩

/-- Wires that are not refused drive a word (20_memory.md R24; 10_state.md R21). -/
theorem driveLevels_eq_next {p : Params} {wires : Vector Level 33} {s t : State}
    (h : driveLevels p wires s = .next t) : ∃ w, s.withWord p w = t := by
  unfold driveLevels at h
  split at h
  · next n _ => exact ⟨BitVec.ofNat 33 n, Host.Outcome.next.inj h⟩
  · cases h

/-- Latency 0 has nothing to reset, by `Block.resetPulse_zero` for each of the three blocks (R93). -/
theorem State.resetPulse_hardware (s : State) : s.resetPulse Params.hardware = s := rfl

/-- Settles O50: a transaction and a placed word reach the codec alone and settle it, driven wires are such
a word, a change of every input settles all three blocks, and there is no reset. -/
theorem hostActionsKeepHardwareInv : Obligations.HostActionsKeepHardwareInv := by
  refine ⟨fun i s t hs hexec => ?transaction, fun x a h s hs => hs.drive x a h,
    fun w s hs => hs.withWord w, fun nbits w s hs => hs.withWord (BitVec.ofNat 33 w),
    fun wires s t hs hlevels => ?levels, fun s _ => State.resetPulse_hardware s⟩
  case transaction =>
    rw [exec_eq, execWith_eq] at hexec
    obtain rfl := Host.Outcome.next.inj hexec
    exact hs.transact (inputOf i)
  case levels =>
    obtain ⟨w, rfl⟩ := driveLevels_eq_next hlevels
    exact hs.withWord w

/-! ### The invariant of the pipelines -/

section Block

variable {ι ο : Type} {L : Nat} {free : Nat → ο} {b : Block ι ο}

/-- A block that starts its numbering anew, with nothing sampled, is in order as soon as its window shows a
free value already drawn. -/
theorem Block.pipelineOk_of_restart (pipe : b.pipe = []) (edge : b.edge = 0)
    (window : L ≠ 0 → ∃ k, k < b.draws ∧ b.output = free k) : b.PipelineOk L free := by
  refine ⟨?_, fun _ => edge, fun hL _ => window hL⟩
  rw [pipe, edge, List.length_nil, Nat.zero_min]

theorem Block.powerUp_of_ne_zero (hL : L ≠ 0) (f : ι → ο) (d : Nat) (x : ι) :
    Block.powerUp L f free d x =
      { input := x, output := free d, pipe := [], edge := 0, draws := d + 1 } :=
  if_neg hL

theorem Block.resetPulse_of_ne_zero (hL : L ≠ 0) :
    b.resetPulse L free = { b with output := free b.draws, pipe := [], edge := 0, draws := b.draws + 1 } :=
  if_neg hL

theorem Block.drive_output_of_ne_zero (hL : L ≠ 0) (f : ι → ο) (x : ι) :
    (b.drive L f x).output = b.output :=
  if_neg hL

/-- Latency 0 has no window, and any other opens one on the value of index `d` (R97). -/
theorem Block.pipelineOk_powerUp (f : ι → ο) (d : Nat) (x : ι) :
    (Block.powerUp L f free d x).PipelineOk L free := by
  by_cases hL : L = 0
  · subst hL
    rw [Block.powerUp_zero]
    exact Block.pipelineOk_of_restart rfl rfl fun h => absurd rfl h
  · rw [Block.powerUp_of_ne_zero hL]
    exact Block.pipelineOk_of_restart rfl rfl fun _ => ⟨d, Nat.lt_succ_self d, rfl⟩

/-- Latency 0 has no reset (R93), and any other opens a new window on the next free value (R97). -/
theorem Block.PipelineOk.resetPulse (hb : b.PipelineOk L free) :
    (b.resetPulse L free).PipelineOk L free := by
  by_cases hL : L = 0
  · subst hL
    rwa [Block.resetPulse_zero]
  · rw [Block.resetPulse_of_ne_zero hL]
    exact Block.pipelineOk_of_restart rfl rfl fun _ => ⟨b.draws, Nat.lt_succ_self _, rfl⟩

/-- Driving an input leaves samples and counters alone, and under a latency the output too (R96). -/
theorem Block.PipelineOk.drive (hb : b.PipelineOk L free) (f : ι → ο) (x : ι) :
    (b.drive L f x).PipelineOk L free := by
  obtain ⟨samples, edgeZero, window⟩ := hb
  refine ⟨samples, edgeZero, fun hL inWindow => ?_⟩
  rw [Block.drive_output_of_ne_zero hL]
  exact window hL inWindow

end Block

/-- Settles O53: each of the three blocks is in order after each of the three actions. -/
theorem hostActionsKeepPipelineInv : Obligations.HostActionsKeepPipelineInv := by
  refine ⟨fun p d x a h => ?powerUp, fun p s hs => ?resetPulse, fun p x a h s hs => ?drive⟩
  case powerUp =>
    exact ⟨Block.pipelineOk_powerUp _ d x, Block.pipelineOk_powerUp _ d a,
      Block.pipelineOk_powerUp _ d h⟩
  case resetPulse =>
    obtain ⟨codec, encoder, decoder⟩ := hs
    exact ⟨codec.resetPulse, encoder.resetPulse, decoder.resetPulse⟩
  case drive =>
    obtain ⟨codec, encoder, decoder⟩ := hs
    exact ⟨codec.drive _ x, encoder.drive _ a, decoder.drive _ h⟩

end Sys2Proof.Machine
end

section
/-! PROOFS. `F16TOF32` (41_fp16_to_fp32.md): what the transaction delivers, the branches of `DEC` as
equations, and the sign, which every branch keeps. -/

namespace Sys2Proof.Machine

/-! ### The stand-alone converters -/

/-- Settles O13: a step clocks each converter on its own input, which at latency 0 is an evaluation. -/
theorem standaloneConvertersDriveEncAndDec : Obligations.StandaloneConvertersDriveEncAndDec :=
  fun s => ⟨_, step_eq_clock_zero s, Block.clock_zero _ Config.freeF16Out s.encoder,
    Block.clock_zero _ Config.freeF32Out s.decoder⟩

/-! ### What the transaction delivers -/

/-- The result of R62, the presented inputs and the frame at once. -/
theorem exec_f16tof32 (x : BitVec 16) (h : Half) (s : State) :
    exec (.f16tof32 x h) s = .next (s.delivered ⟨1#1, x ++ h⟩ (dec Params.hardware h)) := by
  rw [exec_eq_delivered, codecOut_f16tof32]
  rfl

theorem exec_f16tof32_of_dec_eq {h : Half} {r : Single} (hr : dec Params.hardware h = r)
    (x : BitVec 16) (s : State) :
    exec (.f16tof32 x h) s = .next (s.delivered ⟨1#1, x ++ h⟩ r) := by
  rw [exec_f16tof32, hr]

/-! ### The branches of `DEC` (R53) -/

section Branches

variable (p : Params) {h : Half}

theorem dec_of_infinity (he : exp16 h = 31#5) (hm : mant16 h = 0#10) :
    dec p h = compose32 (sign16 h) 0xFF#8 0#23 :=
  if_pos ⟨he, hm⟩

theorem dec_of_nan (he : exp16 h = 31#5) (hm : mant16 h ≠ 0#10) :
    dec p h = p.decNanBits (sign16 h) (mant16 h) :=
  (if_neg fun c => hm c.2).trans (if_pos he)

/-- Off `e16 = 31` the first two tests of R53 fail. -/
theorem dec_of_finite (he : exp16 h ≠ 31#5) :
    dec p h = if exp16 h = 0#5 ∧ mant16 h = 0#10 then compose32 (sign16 h) 0#8 0#23
      else if exp16 h = 0#5 then decSubnormal (sign16 h) (mant16 h)
      else decNormal (sign16 h) (exp16 h) (mant16 h) :=
  (if_neg fun c => he c.1).trans (if_neg he)

theorem dec_of_zero (he : exp16 h = 0#5) (hm : mant16 h = 0#10) :
    dec p h = compose32 (sign16 h) 0#8 0#23 :=
  (dec_of_finite p (by rw [he]; decide)).trans (if_pos ⟨he, hm⟩)

theorem dec_of_normal (he : exp16 h ≠ 31#5) (he' : exp16 h ≠ 0#5) :
    dec p h = decNormal (sign16 h) (exp16 h) (mant16 h) :=
  (dec_of_finite p he).trans ((if_neg fun c => he' c.1).trans (if_neg he'))

/-- This hardware's NaN keeps the sign and drops the payload (R55). -/
theorem dec_hardware_of_nan (he : exp16 h = 31#5) (hm : mant16 h ≠ 0#10) :
    dec Params.hardware h = compose32 (sign16 h) 0xFF#8 0x400000#23 :=
  (dec_of_nan _ he hm).trans (decNanBitsDefault_eq_compose32 _ (mant16 h))

end Branches

/-! ### Infinities, NaNs and zeros -/

theorem compose32_infinity_pattern (s : BitVec 1) :
    compose32 s 0xFF#8 0#23 = if s = 0#1 then 0x7F800000#32 else 0xFF800000#32 := by
  revert s
  decide

theorem compose32_quietNan_pattern (s : BitVec 1) :
    compose32 s 0xFF#8 0x400000#23 = if s = 0#1 then 0x7FC00000#32 else 0xFFC00000#32 := by
  revert s
  decide

/-- Settles O16: the first branch of R53, and the pattern of each sign. -/
theorem decodeInfinity : Obligations.DecodeInfinity := fun x _ s he hm =>
  ⟨exec_f16tof32_of_dec_eq (dec_of_infinity _ he hm) x s, compose32_infinity_pattern _⟩

/-- Settles O17: the second branch of R53, under every parameter and under this hardware's. -/
theorem decodeNan : Obligations.DecodeNan :=
  ⟨fun p _ he hm => dec_of_nan p he hm, fun x _ s he hm =>
    ⟨exec_f16tof32_of_dec_eq (dec_hardware_of_nan he hm) x s, compose32_quietNan_pattern _⟩⟩

/-- A binary16 pattern with zero exponent and significand is one of the two zeros (R35), and the binary32
pattern with that sign and zero fields is the other format's zero. -/
theorem signed_zero_patterns {h : Half} (he : exp16 h = 0#5) (hm : mant16 h = 0#10) :
    h = 0x0000#16 ∧ compose32 (sign16 h) 0#8 0#23 = 0x00000000#32 ∨
      h = 0x8000#16 ∧ compose32 (sign16 h) 0#8 0#23 = 0x80000000#32 := by
  have fields : h = compose16 (sign16 h) 0#5 0#10 := by
    conv_lhs => rw [← compose16_fields h, he, hm]
  rcases BitVec.eq_zero_or_eq_one (sign16 h) with sign | sign <;> rw [sign] at fields ⊢
  · exact .inl ⟨fields.trans (by decide), by decide⟩
  · exact .inr ⟨fields.trans (by decide), by decide⟩

/-- Settles O18: the third branch of R53, and the two zeros by their sign. -/
theorem decodeSignedZero : Obligations.DecodeSignedZero := fun x _ s he hm =>
  ⟨exec_f16tof32_of_dec_eq (dec_of_zero _ he hm) x s, signed_zero_patterns he hm⟩

/-! ### Normals -/

/-- Rebiasing by 112 stays within the eight bits of the exponent (R58). -/
theorem toNat_rebias (e : BitVec 5) : (e.setWidth 8 + 112#8).toNat = e.toNat + 112 := by
  have bound := e.isLt
  rw [BitVec.toNat_add, BitVec.toNat_setWidth, BitVec.toNat_ofNat]
  omega

/-- Settles O20: an exponent of 1..30 fails all four tests of R53, and its rebiased value does not wrap. -/
theorem decodeNormal : Obligations.DecodeNormal := by
  refine ⟨fun x h s lo hi => ?normal, by decide⟩
  have rebias := toNat_rebias (exp16 h)
  have notMax : exp16 h ≠ 31#5 := fun c => absurd (c ▸ hi) (by decide)
  have notZero : exp16 h ≠ 0#5 := fun c => absurd (c ▸ lo) (by decide)
  have lo' : 1 ≤ (exp16 h).toNat := BitVec.le_def.mp lo
  have hi' : (exp16 h).toNat ≤ 30 := BitVec.le_def.mp hi
  exact ⟨(exp16 h).setWidth 8 + 112#8, by omega, rebias, by omega, by omega,
    exec_f16tof32_of_dec_eq (dec_of_normal _ notMax notZero) x s⟩

/-! ### The sign -/

/-- Four branches of R53 compose their result with `s`, and the law of `DEC_NAN_BITS` covers the NaN. -/
theorem sign32_dec {p : Params} (hp : p.DecNanLaw) (h : Half) : sign32 (dec p h) = sign16 h := by
  rcases dec_cases p h with ⟨-, -, hd⟩ | ⟨-, -, hd⟩ | ⟨-, -, hd⟩ | ⟨-, -, hd⟩ | ⟨-, -, hd⟩ <;> rw [hd]
  case inr.inl =>
    obtain ⟨-, -, sign⟩ := hp (sign16 h) (mant16 h)
    exact sign
  all_goals exact sign32_compose32 _ _ _

/-- Settles O21: the result is put together from its own fields, and its sign is that of the operand. -/
theorem decodeKeepsSign : Obligations.DecodeKeepsSign := by
  refine ⟨fun x h s => ?composed, fun p h hp => sign32_dec hp.decNan h⟩
  have sign : sign32 (dec Params.hardware h) = sign16 h := sign32_dec hardware_decNanLaw h
  have fields := compose32_fields (dec Params.hardware h)
  rw [sign] at fields
  exact ⟨_, _, _, exec_f16tof32 x h s, fields.symm, sign, rfl, rfl⟩

/-! ### The whole operation -/

/-- A binary16 pattern as a number, by its fields (R34). -/
theorem toNat_eq_fields16 (h : Half) :
    h.toNat = (sign16 h).toNat * 0x8000 + (exp16 h).toNat * 0x400 + (mant16 h).toNat := by
  have bound := h.isLt
  simp only [sign16, exp16, mant16, BitVec.extractLsb'_toNat, Nat.shiftRight_eq_div_pow]
  omega

/-- The NaNs of one sign are the patterns above that sign's infinity (R35). -/
theorem nan_fields_of_range {h : Half} (s : BitVec 1) (lo : s.toNat * 0x8000 + 0x7C01 ≤ h.toNat)
    (hi : h.toNat ≤ s.toNat * 0x8000 + 0x7FFF) :
    sign16 h = s ∧ exp16 h = 31#5 ∧ mant16 h ≠ 0#10 := by
  have number := toNat_eq_fields16 h
  have signBound := (sign16 h).isLt
  have expBound := (exp16 h).isLt
  have mantBound := (mant16 h).isLt
  refine ⟨BitVec.eq_of_toNat_eq (by omega), BitVec.eq_of_toNat_eq (y := 31#5) ?_, fun zero => ?_⟩
  · rw [BitVec.toNat_ofNat]
    omega
  · rw [zero, BitVec.toNat_ofNat] at number
    omega

/-- Every NaN of the sign `s` is decoded to the quiet NaN of that sign (R55). -/
theorem dec_hardware_of_nan_range {h : Half} (s : BitVec 1)
    (lo : s.toNat * 0x8000 + 0x7C01 ≤ h.toNat) (hi : h.toNat ≤ s.toNat * 0x8000 + 0x7FFF) :
    dec Params.hardware h = compose32 s 0xFF#8 0x400000#23 := by
  obtain ⟨rfl, he, hm⟩ := nan_fields_of_range s lo hi
  exact dec_hardware_of_nan he hm

/-- The word of an `F16TOF32` lies in its row of the operation map (R44). -/
theorem encode_f16tof32_and_rowMask (x : BitVec 16) (h : Half) :
    encode (.f16tof32 x h) &&& 0x100000000#33 = 0x100000000#33 := by
  have row := and_rowMask_eq_rowMatch_decode (encode (.f16tof32 x h))
  rwa [decode_encode] at row

/-- Settles O15: the delivery of `DEC(h)`, both NaN ranges by their sign, and the listed operands one by
one. -/
theorem f16tof32Operation : Obligations.F16tof32Operation := by
  refine ⟨fun x h s => ⟨exec_f16tof32 x h s, encode_f16tof32_and_rowMask x h⟩,
    fun x h s lo hi => ?positiveNan, fun x h s lo => ?negativeNan, fun hr listed x s => ?corners, by decide⟩
  case positiveNan =>
    exact exec_f16tof32_of_dec_eq (dec_hardware_of_nan_range 0#1 (BitVec.le_def.mp lo)
      (BitVec.le_def.mp hi)) x s
  case negativeNan =>
    exact exec_f16tof32_of_dec_eq (dec_hardware_of_nan_range 1#1 (BitVec.le_def.mp lo)
      (Nat.le_of_lt_succ h.isLt)) x s
  case corners =>
    refine exec_f16tof32_of_dec_eq ?_ x s
    revert hr
    simp only [List.forall_mem_cons, List.not_mem_nil, false_imp_iff, implies_true, and_true]
    refine ⟨?zero, ?negZero, ?minSubnormal, ?maxSubnormal, ?minNormal, ?maxFinite, ?infinity,
      ?negInfinity, ?one⟩ <;> decide

end Sys2Proof.Machine
end

section
/-! PROOFS. `F32TOF16` (42_fp32_to_fp16.md): what the transaction delivers, the paths of `ENC` as equations
with the sign that every path keeps, and the paths that do not round. -/

namespace Sys2Proof.Machine

/-! ### What the transaction delivers -/

/-- The result of R80, the presented inputs and the frame at once. -/
theorem exec_f32tof16 (a : Single) (s : State) :
    exec (.f32tof16 a) s = .next (s.delivered ⟨0#1, a⟩ ((enc Params.hardware a).setWidth 32)) :=
  exec_eq_delivered (.f32tof16 a) s

theorem exec_f32tof16_of_enc_eq {a : Single} {r : Half} (hr : enc Params.hardware a = r) (s : State) :
    exec (.f32tof16 a) s = .next (s.delivered ⟨0#1, a⟩ (0#16 ++ r)) := by
  have zext : (r.setWidth 32 : BitVec 32) = 0#16 ++ r := BitVec.setWidth_eq_append (by decide)
  rw [exec_f32tof16, hr, zext]

/-- The word of an `F32TOF16` lies in its row of the operation map (R44). -/
theorem encode_f32tof16_and_rowMask (a : Single) :
    encode (.f32tof16 a) &&& 0x100000000#33 = 0x000000000#33 := by
  have row := and_rowMask_eq_rowMatch_decode (encode (.f32tof16 a))
  rwa [decode_encode] at row

/-! ### The paths of `ENC` (R64, R65) -/

section Paths

variable (p : Params) {a : Single}

theorem enc_of_nan (he : exp32 a = 255#8) (hm : mant32 a ≠ 0#23) :
    enc p a = compose16 (sign32 a) 31#5 (p.encNanMant (mant32 a)) :=
  if_pos ⟨he, hm⟩

theorem enc_of_infinity (he : exp32 a = 255#8) (hm : mant32 a = 0#23) :
    enc p a = compose16 (sign32 a) 31#5 0#10 :=
  (if_neg fun c => c.2 hm).trans (if_pos he)

/-- Up to `e32 = 254` the first two tests of R64 fail. -/
theorem enc_of_finite (hi : exp32 a ≤ 254#8) :
    enc p a = if 143#8 ≤ exp32 a then compose16 (sign32 a) 31#5 0#10
      else if 113#8 ≤ exp32 a then encNormal (sign32 a) (exp32 a) (mant32 a)
      else if 102#8 ≤ exp32 a then encSubnormal (sign32 a) (exp32 a) (mant32 a)
      else composeMag16 (sign32 a) 0#15 := by
  have notMax : exp32 a ≠ 255#8 := fun c => absurd (c ▸ hi) (by decide)
  exact (if_neg fun c => notMax c.1).trans (if_neg notMax)

theorem enc_of_overflow (lo : 143#8 ≤ exp32 a) (hi : exp32 a ≤ 254#8) :
    enc p a = compose16 (sign32 a) 31#5 0#10 :=
  (enc_of_finite p hi).trans (if_pos lo)

theorem enc_of_normal (lo : 113#8 ≤ exp32 a) (hi : exp32 a ≤ 142#8) :
    enc p a = encNormal (sign32 a) (exp32 a) (mant32 a) :=
  (enc_of_finite p (by bv_omega)).trans ((if_neg (by bv_omega)).trans (if_pos lo))

theorem enc_of_subnormal (lo : 102#8 ≤ exp32 a) (hi : exp32 a ≤ 112#8) :
    enc p a = encSubnormal (sign32 a) (exp32 a) (mant32 a) :=
  (enc_of_finite p (by bv_omega)).trans
    ((if_neg (by bv_omega)).trans ((if_neg (by bv_omega)).trans (if_pos lo)))

theorem enc_of_underflow (hi : exp32 a ≤ 101#8) : enc p a = composeMag16 (sign32 a) 0#15 :=
  (enc_of_finite p (by bv_omega)).trans
    ((if_neg (by bv_omega)).trans ((if_neg (by bv_omega)).trans (if_neg (by bv_omega))))

end Paths

/-! ### The sign -/

/-- Every path of R64 composes its result with `s`. -/
@[simp] theorem sign16_enc (p : Params) (a : Single) : sign16 (enc p a) = sign32 a := by
  rcases enc_cases p a with ⟨-, -, path⟩ | ⟨-, -, path⟩ | ⟨-, -, path⟩ | ⟨-, -, path⟩ | ⟨-, -, path⟩ |
    ⟨-, path⟩ <;> simp [path, encNormal, encSubnormal]

/-- Settles O36: the result is put together from its own fields, above it stand zeros, and its sign is that
of the operand. -/
theorem encodeKeepsSign : Obligations.EncodeKeepsSign := by
  refine ⟨fun a s => ?composed, sign16_enc⟩
  have fields := compose16_fields (enc Params.hardware a)
  rw [sign16_enc] at fields
  have lower {start len : Nat} (h : start + len ≤ 16) :
      (0#16 ++ enc Params.hardware a : BitVec 32).extractLsb' start len =
        (enc Params.hardware a).extractLsb' start len := BitVec.extractLsb'_append_eq_of_add_le h
  exact ⟨_, exp16 (enc Params.hardware a), mant16 (enc Params.hardware a), exec_f32tof16_of_enc_eq rfl s,
    congrArg (0#16 ++ ·) fields.symm, (lower (by decide)).trans (sign16_enc _ a), lower (by decide),
    lower (by decide)⟩

/-! ### NaNs and infinities -/

/-- Settles O28: the first path of R64, whose significand on this hardware has the quiet bit set. -/
theorem encodeNan : Obligations.EncodeNan :=
  ⟨fun p _ he hm => enc_of_nan p he hm,
    fun _ s he hm => exec_f32tof16_of_enc_eq (enc_of_nan _ he hm) s, hardware_encNanLaw, by decide⟩

/-- Settles O29: the second path of R64, which both infinities take. -/
theorem encodeInfinity : Obligations.EncodeInfinity :=
  ⟨fun _ s he hm => exec_f32tof16_of_enc_eq (enc_of_infinity _ he hm) s, fun s =>
    ⟨exec_f32tof16_of_enc_eq (r := 0x7C00#16) (by decide) s,
      exec_f32tof16_of_enc_eq (r := 0xFC00#16) (by decide) s⟩⟩

/-! ### The magnitude of an operand, by its binade (R37) -/

/-- The fraction of a binary32 significand is below one. -/
theorem mant32_fraction_lt_one (a : Single) : ((mant32 a).toNat : ℚ) / 2 ^ 23 < 1 := by
  have bound : ((mant32 a).toNat : ℚ) < 2 ^ 23 := by exact_mod_cast (mant32 a).isLt
  rwa [div_lt_one (by norm_num)]

theorem magnitude32_of_normal {a : Single} (he : exp32 a ≠ 0#8) :
    magnitude32 a = (1 + ((mant32 a).toNat : ℚ) / 2 ^ 23) * 2 ^ (((exp32 a).toNat : ℤ) - 127) :=
  if_neg he

/-- A normal operand is at least the power of two its exponent stands for. -/
theorem two_zpow_le_magnitude32 {a : Single} (he : exp32 a ≠ 0#8) :
    (2 : ℚ) ^ (((exp32 a).toNat : ℤ) - 127) ≤ magnitude32 a := by
  have fraction : (0 : ℚ) ≤ ((mant32 a).toNat : ℚ) / 2 ^ 23 := by positivity
  rw [magnitude32_of_normal he]
  exact le_mul_of_one_le_left (by positivity) (by linarith)

/-- Every finite operand, a zero and a subnormal included, is below the next power of two. -/
theorem magnitude32_lt_two_zpow (a : Single) :
    magnitude32 a < (2 : ℚ) ^ (((exp32 a).toNat : ℤ) - 126) := by
  have fraction := mant32_fraction_lt_one a
  by_cases he : exp32 a = 0#8
  · have subnormal : magnitude32 a = ((mant32 a).toNat : ℚ) / 2 ^ 23 * 2 ^ (-126 : ℤ) := if_pos he
    rw [subnormal, he]
    exact mul_lt_of_lt_one_left (by positivity) fraction
  · have double : ((exp32 a).toNat : ℤ) - 126 = 1 + (((exp32 a).toNat : ℤ) - 127) := by omega
    rw [magnitude32_of_normal he, double, zpow_add₀ (by norm_num), zpow_one]
    exact mul_lt_mul_of_pos_right (by linarith) (by positivity)

/-! ### Underflow -/

/-- The zeros of a binary16 result on the bus, by their sign. -/
theorem zero_result_pattern (s : BitVec 1) :
    (0#16 ++ composeMag16 s 0#15 : BitVec 32) = if s = 0#1 then 0x00000000#32 else 0x00008000#32 := by
  revert s
  decide

/-- Settles O34: the last path of R64, whose operands lie below the binade of `e32 = 102`. -/
theorem encodeUnderflow : Obligations.EncodeUnderflow := by
  refine ⟨fun a s hi => ⟨?result, ?exponent, ?magnitude, ?smallest⟩, by decide⟩
  case result =>
    rw [exec_f32tof16_of_enc_eq (enc_of_underflow _ hi) s, zero_result_pattern]
  all_goals have hi' : (exp32 a).toNat ≤ 101 := BitVec.le_def.mp hi
  case exponent =>
    unfold unbiased32
    omega
  case magnitude =>
    exact (magnitude32_lt_two_zpow a).trans_le (zpow_le_zpow_right₀ (by norm_num) (by omega))
  case smallest =>
    have units : units16 0x0001#16 = 1 := by decide
    rw [magnitude16_eq_units, units]
    norm_num

/-! ### Overflow -/

/-- A finite binary16 pattern is one below the exponent of the infinities (R35). -/
theorem exp16_ne_max_of_isFinite {h : Half} (hf : (value16 h).isFinite = true) : exp16 h ≠ 31#5 := by
  intro he
  by_cases hm : mant16 h = 0#10 <;> simp [value16, class16, he, hm, FloatValue.isFinite] at hf

/-- Every finite binary16 value is below `2^16`. -/
theorem magnitude16_lt_of_isFinite {h : Half} (hf : (value16 h).isFinite = true) :
    magnitude16 h < 2 ^ 16 := by
  have hi : (exp16 h).toNat ≤ 30 := by
    have notMax := exp16_ne_max_of_isFinite hf
    bv_omega
  have mant := (mant16 h).isLt
  have units : units16 h < 2 ^ 40 := by
    unfold units16
    split
    · omega
    · calc (1024 + (mant16 h).toNat) * 2 ^ ((exp16 h).toNat - 1)
        _ ≤ (1024 + (mant16 h).toNat) * 2 ^ 29 :=
          Nat.mul_le_mul_left _ (Nat.pow_le_pow_right (by decide) (by omega))
        _ < 2 ^ 40 := by omega
  have units' : (units16 h : ℚ) < 2 ^ 40 := by exact_mod_cast units
  rw [magnitude16_eq_units, div_lt_iff₀ (by norm_num)]
  exact units'.trans_eq (by norm_num)

/-- The infinities of a binary16 result on the bus, by their sign. -/
theorem infinity_result_pattern (s : BitVec 1) :
    (0#16 ++ compose16 s 31#5 0#10 : BitVec 32) = if s = 0#1 then 0x00007C00#32 else 0x0000FC00#32 := by
  revert s
  decide

/-- Settles O30: the third path of R64, whose operands lie in the binades from `2^16` on, and 65520, which
carries to the infinity from `e32 = 142`. -/
theorem encodeOverflow : Obligations.EncodeOverflow := by
  refine ⟨fun a s lo hi => ?overflow, ⟨0x477FF000#32, by decide, by decide⟩⟩
  have lo' : 143 ≤ (exp32 a).toNat := BitVec.le_def.mp lo
  have normal : exp32 a ≠ 0#8 := fun c => absurd (c ▸ lo) (by decide)
  have large : (2 : ℚ) ^ 16 ≤ magnitude32 a :=
    calc (2 : ℚ) ^ 16 = 2 ^ (16 : ℤ) := by norm_num
      _ ≤ 2 ^ (((exp32 a).toNat : ℤ) - 127) := zpow_le_zpow_right₀ (by norm_num) (by omega)
      _ ≤ magnitude32 a := two_zpow_le_magnitude32 normal
  refine ⟨?_, large, fun h hf => (magnitude16_lt_of_isFinite hf).trans_le large⟩
  rw [exec_f32tof16_of_enc_eq (enc_of_overflow _ lo hi) s, infinity_result_pattern]

end Sys2Proof.Machine
end

section
/-! PROOFS. The paths of `ENC` that round (42_fp32_to_fp16.md R70 to R73): the kept value as a number, when
it is incremented, and where the increment carries. -/

namespace Sys2Proof.Machine

/-! ### Words as numbers -/

/-- A concatenation as a number, by its parts. -/
theorem toNat_append_eq_mul_add {m n : Nat} (x : BitVec m) (y : BitVec n) :
    (x ++ y).toNat = x.toNat * 2 ^ n + y.toNat := by
  rw [BitVec.toNat_append, ← Nat.shiftLeft_add_eq_or_of_lt y.isLt, Nat.shiftLeft_eq]

/-- A field as a number. -/
theorem toNat_extractLsb'_eq_div_mod {w : Nat} (v : BitVec w) (start len : Nat) :
    (v.extractLsb' start len).toNat = v.toNat / 2 ^ start % 2 ^ len := by
  rw [BitVec.extractLsb'_toNat, Nat.shiftRight_eq_div_pow]

/-- A bit as a digit of the number. -/
theorem getLsbD_eq_true_iff_div_mod {w : Nat} (v : BitVec w) (i : Nat) :
    v.getLsbD i = true ↔ v.toNat / 2 ^ i % 2 = 1 := by
  rw [← BitVec.testBit_toNat, Nat.testBit_eq_decide_div_mod_eq, decide_eq_true_iff]

/-! ### Exponent and significand as one magnitude (R64) -/

/-- The fields of a binary16 pattern are those of its 15-bit magnitude. -/
theorem composeMag16_append (s : BitVec 1) (e : BitVec 5) (m : BitVec 10) :
    composeMag16 s (e ++ m) = compose16 s e m :=
  (BitVec.append_assoc (x₁ := s) (x₂ := e) (x₃ := m)).symm

@[simp] theorem magnitude_composeMag16 (s : BitVec 1) (v : BitVec 15) :
    (composeMag16 s v).extractLsb' 0 15 = v :=
  BitVec.extractLsb'_append_eq_right

@[simp] theorem magnitude_compose16 (s : BitVec 1) (e : BitVec 5) (m : BitVec 10) :
    (compose16 s e m).extractLsb' 0 15 = e ++ m := by
  rw [← composeMag16_append, magnitude_composeMag16]

/-! ### The rule for rounding up (00_scope.md R10, R66) -/

/-- Dropping the `k` low bits of `v` above which `lsb` stands rounds up: more than half a unit is dropped, or
half of one next to an odd value. -/
def RoundsUp {w : Nat} (v : BitVec w) (k : Nat) (lsb : Bool) : Prop :=
  v.getLsbD (k - 1) = true ∧ ((∃ j, j < k - 1 ∧ v.getLsbD j = true) ∨ lsb = true)

/-- The bits of the model's rounding are those of the rule. -/
theorem roundKept_cases_of_shift {w n : Nat} (kept : BitVec n) (v : BitVec w) (k : Nat) :
    (RoundsUp v k (kept.getLsbD 0) ∧ roundKept kept (roundBit v k) (stickyBit v k) = kept + 1#n) ∨
    (¬ RoundsUp v k (kept.getLsbD 0) ∧ roundKept kept (roundBit v k) (stickyBit v k) = kept) := by
  unfold RoundsUp
  rw [← stickyBit_iff]
  rcases roundKept_cases kept (roundBit v k) (stickyBit v k) with ⟨up, round, rest⟩ | ⟨keep, no⟩
  · exact .inl ⟨⟨round, rest⟩, up⟩
  · exact .inr ⟨no, keep⟩

section Rounding

variable {w n k : Nat} {kept : BitVec n} {v : BitVec w}

theorem roundKept_of_roundsUp (h : RoundsUp v k (kept.getLsbD 0)) :
    roundKept kept (roundBit v k) (stickyBit v k) = kept + 1#n := by
  rcases roundKept_cases_of_shift kept v k with ⟨-, up⟩ | ⟨no, -⟩
  · exact up
  · exact absurd h no

theorem roundKept_of_not_roundsUp (h : ¬ RoundsUp v k (kept.getLsbD 0)) :
    roundKept kept (roundBit v k) (stickyBit v k) = kept := by
  rcases roundKept_cases_of_shift kept v k with ⟨up, -⟩ | ⟨-, keep⟩
  · exact absurd up h
  · exact keep

/-- Where the kept value is not the largest of its width, rounding keeps the number or adds one to it, and
it adds one only if the round bit is set. -/
theorem toNat_roundKept_cases (hn : kept.toNat + 1 < 2 ^ n) :
    (roundKept kept (roundBit v k) (stickyBit v k)).toNat = kept.toNat ∨
    (roundKept kept (roundBit v k) (stickyBit v k)).toNat = kept.toNat + 1 ∧
      v.getLsbD (k - 1) = true := by
  rcases roundKept_cases_of_shift kept v k with ⟨⟨round, -⟩, up⟩ | ⟨-, keep⟩
  · refine .inr ⟨?_, round⟩
    rw [up, BitVec.toNat_add, BitVec.toNat_ofNat, Nat.add_mod_mod, Nat.mod_eq_of_lt hn]
  · exact .inl (congrArg BitVec.toNat keep)

end Rounding

/-! ### The normal path (R70) -/

/-- The kept value `{e16, m32[22:13]}`. -/
def normalKept (a : Single) : BitVec 15 :=
  (exp32 a - 112#8).extractLsb' 0 5 ++ (mant32 a).extractLsb' 13 10

/-- The exponent of the kept value, `e32 - 112`, fits its five bits. -/
theorem toNat_normalKept_exp {a : Single} (lo : 113#8 ≤ exp32 a) (hi : exp32 a ≤ 142#8) :
    ((exp32 a - 112#8).extractLsb' 0 5).toNat = (exp32 a).toNat - 112 := by
  rw [toNat_extractLsb'_eq_div_mod]
  bv_omega

theorem toNat_normalKept {a : Single} (lo : 113#8 ≤ exp32 a) (hi : exp32 a ≤ 142#8) :
    (normalKept a).toNat =
      ((exp32 a).toNat - 112) * 2 ^ 10 + ((mant32 a).extractLsb' 13 10).toNat := by
  unfold normalKept
  rw [toNat_append_eq_mul_add, toNat_normalKept_exp lo hi]

/-- The lowest kept bit is `m32[13]`. -/
theorem getLsbD_zero_normalKept (a : Single) :
    (normalKept a).getLsbD 0 = (mant32 a).getLsbD 13 := by
  rw [normalKept, BitVec.getLsbD_append, if_pos (by decide), BitVec.getLsbD_extractLsb']
  rfl

section Normal

variable (p : Params) {a : Single} (lo : 113#8 ≤ exp32 a) (hi : exp32 a ≤ 142#8)
include lo hi

theorem enc_of_normal_eq_roundKept :
    enc p a = composeMag16 (sign32 a)
      (roundKept (normalKept a) (roundBit (mant32 a) 13) (stickyBit (mant32 a) 13)) :=
  enc_of_normal p lo hi

theorem enc_of_normal_up (up : RoundsUp (mant32 a) 13 ((mant32 a).getLsbD 13)) :
    enc p a = composeMag16 (sign32 a) (normalKept a + 1#15) := by
  rw [enc_of_normal_eq_roundKept p lo hi, roundKept_of_roundsUp (by rwa [getLsbD_zero_normalKept])]

theorem enc_of_normal_keep (keep : ¬ RoundsUp (mant32 a) 13 ((mant32 a).getLsbD 13)) :
    enc p a = composeMag16 (sign32 a) (normalKept a) := by
  rw [enc_of_normal_eq_roundKept p lo hi, roundKept_of_not_roundsUp (by rwa [getLsbD_zero_normalKept])]

end Normal

/-- Settles O31: the kept value, and both outcomes of its rounding. -/
theorem encodeNormal : Obligations.EncodeNormal := by
  refine ⟨fun a s lo hi => ?path, by decide⟩
  have exponent := toNat_normalKept_exp lo hi
  exact ⟨_, normalKept a, exponent, by bv_omega, by bv_omega, rfl,
    fun up => exec_f32tof16_of_enc_eq (enc_of_normal_up _ lo hi up) s,
    fun keep => exec_f32tof16_of_enc_eq (enc_of_normal_keep _ lo hi keep) s⟩

/-! ### The carry of the normal path (R71) -/

/-- A full significand carries into the exponent above it. -/
theorem append_full_add_one (e : BitVec 5) :
    (e ++ 0x3FF#10 : BitVec 15) + 1#15 = (e + 1#5) ++ 0#10 := by
  revert e
  decide

/-- With the significand full and the round bit set, the tie goes to the even value, which carries. -/
theorem enc_of_normal_carry (p : Params) {a : Single} (lo : 113#8 ≤ exp32 a) (hi : exp32 a ≤ 142#8)
    (full : (mant32 a).extractLsb' 13 10 = 0x3FF#10) (round : (mant32 a).getLsbD 12 = true) :
    enc p a = compose16 (sign32 a) (BitVec.ofNat 5 ((exp32 a).toNat - 111)) 0#10 := by
  have odd : (mant32 a).getLsbD 13 = true := by
    have bit := congrArg (BitVec.getLsbD · 0) full
    simpa using bit
  have exponent : (exp32 a - 112#8).extractLsb' 0 5 + 1#5 = BitVec.ofNat 5 ((exp32 a).toNat - 111) := by
    apply BitVec.eq_of_toNat_eq
    rw [BitVec.toNat_add, toNat_normalKept_exp lo hi]
    bv_omega
  rw [enc_of_normal_up p lo hi ⟨round, .inr odd⟩, normalKept, full, append_full_add_one, exponent,
    composeMag16_append]

/-- A full kept significand and the round bit are the eleven high bits of `m32`. -/
theorem carry_iff_le_toNat_mant32 (a : Single) :
    (mant32 a).extractLsb' 13 10 = 0x3FF#10 ∧ (mant32 a).getLsbD 12 = true ↔
      0x7FF000 ≤ (mant32 a).toNat := by
  have bound := (mant32 a).isLt
  rw [← BitVec.toNat_inj, toNat_extractLsb'_eq_div_mod, getLsbD_eq_true_iff_div_mod, BitVec.toNat_ofNat]
  omega

/-- The carry from `e32 = 142` starts at 65520, the middle between 65504 and `2^16`. -/
theorem le_magnitude32_of_carry {a : Single} (he : exp32 a = 142#8) (hm : 0x7FF000 ≤ (mant32 a).toNat) :
    65520 ≤ magnitude32 a := by
  have hm' : (0x7FF000 : ℚ) ≤ (mant32 a).toNat := by exact_mod_cast hm
  rw [magnitude32_of_normal (by rw [he]; decide), he]
  norm_num
  linarith

/-- Up to `e16 = 30` the increment of R71 does not wrap. -/
theorem kept_add_one_bounds {e : BitVec 5} (he : e ≤ 30#5) (m : BitVec 10) :
    (e ++ m : BitVec 15) ≤ 0x7BFF#15 ∧
      ((e ++ m : BitVec 15) + 1#15).toNat = (e ++ m : BitVec 15).toNat + 1 ∧
      (e ++ m : BitVec 15) + 1#15 ≤ 0x7C00#15 := by
  have number := toNat_append_eq_mul_add e m
  have exp : e.toNat ≤ 30 := BitVec.le_def.mp he
  have mant := m.isLt
  generalize (e ++ m : BitVec 15) = v at number
  refine ⟨?_, ?_, ?_⟩ <;> bv_omega

/-- Settles O32: a full significand is odd, so its rounding carries, and from `e32 = 142` the carry is the
infinity's exponent. -/
theorem encodeNormalCarry : Obligations.EncodeNormalCarry := by
  refine ⟨fun a s lo hi full round => ⟨?carry, fun he => ⟨?infinity, ?magnitude⟩⟩,
    fun e m he => kept_add_one_bounds he m, ?boundary, by decide⟩
  case carry => exact exec_f32tof16_of_enc_eq (enc_of_normal_carry _ lo hi full round) s
  case infinity => rw [he]; rfl
  case magnitude => exact le_magnitude32_of_carry he ((carry_iff_le_toNat_mant32 a).mp ⟨full, round⟩)
  case boundary =>
    have exp : exp32 0x477FF000#32 = 142#8 := by decide
    have mant : mant32 0x477FF000#32 = 0x7FF000#23 := by decide
    rw [magnitude32_of_normal (by rw [exp]; decide), exp, mant]
    norm_num

end Sys2Proof.Machine
end

section
/-! PROOFS. The subnormal path of `ENC` (42_fp32_to_fp16.md R72, R73): the shifted significand, its
rounding, and the carry into the smallest normal. -/

namespace Sys2Proof.Machine

/-! ### The kept value (R72) -/

/-- The significand with its implicit one, `M = {1, m32}`. -/
def significand32 (a : Single) : BitVec 24 := 1#1 ++ mant32 a

theorem toNat_significand32 (a : Single) : (significand32 a).toNat = 2 ^ 23 + (mant32 a).toNat := by
  unfold significand32
  rw [toNat_append_eq_mul_add]
  rfl

/-- The implicit one is bit 23. -/
theorem getLsbD_significand32_implicit (a : Single) : (significand32 a).getLsbD 23 = true := by
  rw [significand32, BitVec.getLsbD_append, if_neg (by decide)]
  rfl

/-- Below the implicit one stand the bits of `m32`. -/
theorem getLsbD_significand32_of_lt (a : Single) {j : Nat} (hj : j < 23) :
    (significand32 a).getLsbD j = (mant32 a).getLsbD j := by
  rw [significand32, BitVec.getLsbD_append, if_pos hj]

/-- The kept value `q = M >> k`, `k = 126 - e32`. -/
def subnormalKept (a : Single) : BitVec 15 :=
  (significand32 a >>> (126 - (exp32 a).toNat)).setWidth 15

/-- Shifted by 14 places or more, the 24 bits of `M` leave at most ten. -/
theorem significand32_div_le (a : Single) {k : Nat} (hk : 14 ≤ k) :
    (significand32 a).toNat / 2 ^ k ≤ 0x3FF :=
  calc (significand32 a).toNat / 2 ^ k
    _ ≤ (significand32 a).toNat / 2 ^ 14 :=
      Nat.div_le_div_left (Nat.pow_le_pow_right (by decide) hk) (by decide)
    _ ≤ 0x3FF := by have bound := (significand32 a).isLt; omega

theorem toNat_subnormalKept {a : Single} (hi : exp32 a ≤ 112#8) :
    (subnormalKept a).toNat = (significand32 a).toNat / 2 ^ (126 - (exp32 a).toNat) := by
  have ten := significand32_div_le a (k := 126 - (exp32 a).toNat) (by bv_omega)
  rw [subnormalKept, BitVec.toNat_setWidth, BitVec.toNat_ushiftRight, Nat.shiftRight_eq_div_pow,
    Nat.mod_eq_of_lt (by omega)]

theorem toNat_subnormalKept_le {a : Single} (hi : exp32 a ≤ 112#8) : (subnormalKept a).toNat ≤ 0x3FF := by
  rw [toNat_subnormalKept hi]
  exact significand32_div_le a (by bv_omega)

/-! ### Its rounding (R73) -/

section Subnormal

variable (p : Params) {a : Single} (lo : 102#8 ≤ exp32 a) (hi : exp32 a ≤ 112#8)
include lo hi

theorem enc_of_subnormal_eq_roundKept :
    enc p a = composeMag16 (sign32 a) (roundKept (subnormalKept a)
      (roundBit (significand32 a) (126 - (exp32 a).toNat))
      (stickyBit (significand32 a) (126 - (exp32 a).toNat))) :=
  enc_of_subnormal p lo hi

theorem enc_of_subnormal_up
    (up : RoundsUp (significand32 a) (126 - (exp32 a).toNat) ((subnormalKept a).getLsbD 0)) :
    enc p a = composeMag16 (sign32 a) (subnormalKept a + 1#15) := by
  rw [enc_of_subnormal_eq_roundKept p lo hi, roundKept_of_roundsUp up]

theorem enc_of_subnormal_keep
    (keep : ¬ RoundsUp (significand32 a) (126 - (exp32 a).toNat) ((subnormalKept a).getLsbD 0)) :
    enc p a = composeMag16 (sign32 a) (subnormalKept a) := by
  rw [enc_of_subnormal_eq_roundKept p lo hi, roundKept_of_not_roundsUp keep]

end Subnormal

/-- The carry out of `0x3FF` sets the exponent to one: the smallest normal. -/
theorem composeMag16_subnormal_carry (s : BitVec 1) :
    composeMag16 s (0x3FF#15 + 1#15) = compose16 s 1#5 0#10 := by
  revert s
  decide

/-! ### The binade of `2^-25` (R73, `u = -25`) -/

/-- All 24 bits of `M` are dropped. -/
theorem subnormalKept_eq_zero {a : Single} (he : exp32 a = 102#8) : subnormalKept a = 0#15 := by
  apply BitVec.eq_of_toNat_eq
  rw [toNat_subnormalKept (by rw [he]; decide), he]
  exact Nat.div_eq_of_lt (significand32 a).isLt

/-- Below the implicit one some bit is set exactly when `m32` is not zero. -/
theorem exists_getLsbD_significand32_iff (a : Single) :
    (∃ j, j < 23 ∧ (significand32 a).getLsbD j = true) ↔ mant32 a ≠ 0#23 := by
  constructor
  · rintro ⟨j, hj, bit⟩ zero
    rw [getLsbD_significand32_of_lt a hj, zero, BitVec.getLsbD_zero] at bit
    cases bit
  · intro hm
    by_contra none
    refine hm (BitVec.eq_of_getLsbD_eq fun j hj => ?_)
    rw [BitVec.getLsbD_zero, ← getLsbD_significand32_of_lt a hj]
    exact Bool.eq_false_iff.mpr fun bit => none ⟨j, hj, bit⟩

/-- The implicit one is the round bit, and zero is even: `2^-25` itself is the tie that goes to zero. -/
theorem roundsUp_smallest_iff {a : Single} (he : exp32 a = 102#8) :
    RoundsUp (significand32 a) (126 - (exp32 a).toNat) ((subnormalKept a).getLsbD 0) ↔
      mant32 a ≠ 0#23 := by
  rw [he, subnormalKept_eq_zero he, ← exists_getLsbD_significand32_iff]
  exact ⟨fun ⟨_, rest⟩ => rest.resolve_right (by decide),
    fun sticky => ⟨getLsbD_significand32_implicit a, .inl sticky⟩⟩

/-- The tie gives zero and every other operand of the binade the smallest subnormal. -/
theorem enc_of_smallest (p : Params) {a : Single} (he : exp32 a = 102#8) :
    enc p a = compose16 (sign32 a) 0#5 (if mant32 a = 0#23 then 0#10 else 1#10) := by
  have lo : 102#8 ≤ exp32 a := by rw [he]; decide
  have hi : exp32 a ≤ 112#8 := by rw [he]; decide
  have kept := subnormalKept_eq_zero he
  rw [← composeMag16_append]
  by_cases hm : mant32 a = 0#23
  · have keep := mt (roundsUp_smallest_iff he).mp (not_not.mpr hm)
    rw [enc_of_subnormal_keep p lo hi keep, kept, if_pos hm]
    rfl
  · have up := (roundsUp_smallest_iff he).mpr hm
    rw [enc_of_subnormal_up p lo hi up, kept, if_neg hm]
    rfl

/-- Settles O33: the kept value, both outcomes of its rounding, the carry, and the binade of `2^-25`. -/
theorem encodeSubnormal : Obligations.EncodeSubnormal := by
  refine ⟨fun a s lo hi => ?path, fun a s he => exec_f32tof16_of_enc_eq (enc_of_smallest _ he) s, by decide⟩
  have lo' : 102 ≤ (exp32 a).toNat := BitVec.le_def.mp lo
  have hi' : (exp32 a).toNat ≤ 112 := BitVec.le_def.mp hi
  refine ⟨126 - (exp32 a).toNat, subnormalKept a, by omega, ?shift, by omega, by omega,
    toNat_subnormalKept hi, toNat_subnormalKept_le hi,
    fun up => exec_f32tof16_of_enc_eq (enc_of_subnormal_up _ lo hi up) s,
    fun keep => exec_f32tof16_of_enc_eq (enc_of_subnormal_keep _ lo hi keep) s, fun hk => ?smallest,
    fun full => ?carry⟩
  case shift =>
    unfold unbiased32
    omega
  case smallest =>
    have he : exp32 a = 102#8 := BitVec.eq_of_toNat_eq (by rw [BitVec.toNat_ofNat]; omega)
    rw [hk]
    exact ⟨subnormalKept_eq_zero he, getLsbD_significand32_implicit a, exists_getLsbD_significand32_iff a⟩
  case carry => rw [full, composeMag16_subnormal_carry]

end Sys2Proof.Machine
end

section
/-! PROOFS. `ENC` as a whole (42_fp32_to_fp16.md R65, R80): where the results of each path lie, which results
are NaNs, and the corner cases of the operation. -/

namespace Sys2Proof.Machine

/-! ### Where the results of the rounding paths lie (R65) -/

/-- The normal path ends between the smallest normal and the infinity, which only the carry of
`e32 = 142` reaches. -/
theorem enc_of_normal_range (p : Params) {a : Single} (lo : 113#8 ≤ exp32 a) (hi : exp32 a ≤ 142#8) :
    0x0400#15 ≤ (enc p a).extractLsb' 0 15 ∧ (enc p a).extractLsb' 0 15 ≤ 0x7C00#15 ∧
      ((enc p a).extractLsb' 0 15 = 0x7C00#15 → (exp32 a).toNat = 142 ∧
        (mant32 a).extractLsb' 13 10 = 0x3FF#10 ∧ (mant32 a).getLsbD 12 = true) := by
  have kept := toNat_normalKept lo hi
  have bound : (normalKept a).toNat + 1 < 2 ^ 15 := by bv_omega
  rw [enc_of_normal_eq_roundKept p lo hi, magnitude_composeMag16]
  rcases toNat_roundKept_cases (v := mant32 a) (k := 13) bound with keep | ⟨up, round⟩
  · exact ⟨by bv_omega, by bv_omega, fun top => by exfalso; bv_omega⟩
  · exact ⟨by bv_omega, by bv_omega, fun top => ⟨by bv_omega, by bv_omega, round⟩⟩

/-- Below `e32 = 112` the shift leaves at most nine bits. -/
theorem exp32_of_subnormalKept_full {a : Single} (hi : exp32 a ≤ 112#8)
    (full : (subnormalKept a).toNat = 0x3FF) : (exp32 a).toNat = 112 := by
  by_contra below
  rw [toNat_subnormalKept hi] at full
  have bound := (significand32 a).isLt
  have nine : (significand32 a).toNat / 2 ^ (126 - (exp32 a).toNat) ≤ (significand32 a).toNat / 2 ^ 15 :=
    Nat.div_le_div_left (Nat.pow_le_pow_right (by decide) (by bv_omega)) (by decide)
  omega

/-- The subnormal path ends at the smallest normal, which only the carry of `e32 = 112` reaches. -/
theorem enc_of_subnormal_range (p : Params) {a : Single} (lo : 102#8 ≤ exp32 a) (hi : exp32 a ≤ 112#8) :
    (enc p a).extractLsb' 0 15 ≤ 0x0400#15 ∧
      ((enc p a).extractLsb' 0 15 = 0x0400#15 → (exp32 a).toNat = 112 ∧
        (mant32 a).extractLsb' 14 9 = 0x1FF#9 ∧ (mant32 a).getLsbD 13 = true) := by
  have kept := toNat_subnormalKept_le hi
  rw [enc_of_subnormal_eq_roundKept p lo hi, magnitude_composeMag16]
  rcases toNat_roundKept_cases (v := significand32 a) (k := 126 - (exp32 a).toNat)
    (kept := subnormalKept a) (by omega) with keep | ⟨up, round⟩
  · exact ⟨by bv_omega, fun top => by exfalso; bv_omega⟩
  · refine ⟨by bv_omega, fun top => ?_⟩
    have full : (subnormalKept a).toNat = 0x3FF := by bv_omega
    have he := exp32_of_subnormalKept_full hi full
    rw [he, getLsbD_significand32_of_lt a (by decide)] at round
    rw [toNat_subnormalKept hi, he, toNat_significand32] at full
    refine ⟨he, BitVec.eq_of_toNat_eq ?_, round⟩
    rw [toNat_extractLsb'_eq_div_mod, BitVec.toNat_ofNat]
    omega

/-- A NaN's magnitude lies above the infinity's (R35). -/
theorem infinity_lt_append {m : BitVec 10} (hm : m ≠ 0#10) : 0x7C00#15 < (31#5 ++ m : BitVec 15) := by
  have number := toNat_append_eq_mul_add 31#5 m
  have nonzero := one_le_toNat_of_ne_zero hm
  bv_omega

/-- Settles O27: path by path, the rounding ones by the range of their results. -/
theorem encodePathsByExponent : Obligations.EncodePathsByExponent := by
  intro p a hp e m r
  refine ⟨sign16_enc p a, rfl, fun he hm => ?nan, fun he hm => ?infinity, fun lo hi => ?overflow,
    fun lo hi => enc_of_normal_range p (BitVec.le_def.mpr lo) (BitVec.le_def.mpr hi),
    fun lo hi => enc_of_subnormal_range p (BitVec.le_def.mpr lo) (BitVec.le_def.mpr hi),
    fun hi => ?underflow⟩ <;> unfold r
  case nan =>
    rw [enc_of_nan p (BitVec.eq_of_toNat_eq he) hm, magnitude_compose16]
    exact infinity_lt_append (hp _)
  case infinity =>
    rw [enc_of_infinity p (BitVec.eq_of_toNat_eq he) hm, magnitude_compose16]
    rfl
  case overflow =>
    rw [enc_of_overflow p (BitVec.le_def.mpr lo) (BitVec.le_def.mpr hi), magnitude_compose16]
    rfl
  case underflow => rw [enc_of_underflow p (BitVec.le_def.mpr hi), magnitude_composeMag16]

/-! ### NaN results (R77(f)) -/

/-- The NaNs are the magnitudes above the infinity (R35). -/
theorem class16_eq_nan_iff_infinity_lt (h : Half) :
    class16 h = .nan ↔ 0x7C00#15 < h.extractLsb' 0 15 := by
  have magnitude : h.extractLsb' 0 15 = exp16 h ++ mant16 h := by
    conv_lhs => rw [← compose16_fields h, magnitude_compose16]
  rw [class16_eq_nan_iff, magnitude]
  constructor
  · rintro ⟨he, hm⟩
    rw [he]
    exact infinity_lt_append hm
  · intro above
    have number := toNat_append_eq_mul_add (exp16 h) (mant16 h)
    have mantBound := (mant16 h).isLt
    generalize (exp16 h ++ mant16 h : BitVec 15) = v at number above
    exact ⟨by bv_omega, fun zero => by rw [zero] at number; bv_omega⟩

/-- Every path of `ENC` but that of a NaN ends at the infinity or below. -/
theorem enc_le_infinity (p : Params) {a : Single} (ha : class32 a ≠ .nan) :
    (enc p a).extractLsb' 0 15 ≤ 0x7C00#15 := by
  rcases enc_cases p a with ⟨he, hm, -⟩ | ⟨-, -, path⟩ | ⟨-, -, path⟩ | ⟨hi, lo, -⟩ | ⟨hi, lo, -⟩ | ⟨-, path⟩
  · exact absurd ((class32_eq_nan_iff a).mpr ⟨he, hm⟩) ha
  · rw [path, magnitude_compose16]; decide
  · rw [path, magnitude_compose16]; decide
  · obtain ⟨-, top, -⟩ := enc_of_normal_range p lo (by bv_omega)
    exact top
  · obtain ⟨top, -⟩ := enc_of_subnormal_range p lo (by bv_omega)
    exact BitVec.le_trans top (by decide)
  · rw [path, magnitude_composeMag16]; decide

theorem class16_enc_eq_nan_iff {p : Params} (hp : p.EncNanLaw) (a : Single) :
    class16 (enc p a) = .nan ↔ class32 a = .nan := by
  rw [class16_eq_nan_iff_infinity_lt]
  constructor
  · intro above
    by_contra ha
    exact absurd above (BitVec.not_lt.mpr (enc_le_infinity p ha))
  · intro ha
    obtain ⟨he, hm⟩ := (class32_eq_nan_iff a).mp ha
    rw [enc_of_nan p he hm, magnitude_compose16]
    exact infinity_lt_append (hp _)

/-- The exponent of a decoded subnormal, `103 + p` with `p` at most 9, is none of a NaN (R57). -/
theorem exp32_decSubnormal_ne_max (s : BitVec 1) (m : BitVec 10) : exp32 (decSubnormal s m) ≠ 255#8 := by
  have top : msbIndex m < 10 := msbBelow_lt m 10 (by decide)
  unfold decSubnormal
  rw [exp32_compose32]
  bv_omega

/-- The exponent of a decoded normal, `e16 + 112`, is none of a NaN (R58). -/
theorem exp32_decNormal_ne_max (s : BitVec 1) (e : BitVec 5) (m : BitVec 10) :
    exp32 (decNormal s e m) ≠ 255#8 := by
  have rebias := toNat_rebias e
  unfold decNormal
  rw [exp32_compose32]
  bv_omega

/-- Case by case of R53: the law of `DEC_NAN_BITS` makes the second a NaN, and the fields of the others'
results are those of none. -/
theorem class32_dec_eq_nan_iff {p : Params} (hp : p.DecNanLaw) (h : Half) :
    class32 (dec p h) = .nan ↔ class16 h = .nan := by
  rw [class16_eq_nan_iff, class32_eq_nan_iff]
  rcases dec_cases p h with ⟨_, hm, path⟩ | ⟨he, hm, path⟩ | ⟨he, hm, path⟩ | ⟨he, _, path⟩ |
    ⟨he, _, path⟩ <;> rw [path]
  · simp [hm]
  · obtain ⟨exp, mant, -⟩ := hp (sign16 h) (mant16 h)
    exact ⟨fun _ => ⟨he, hm⟩, fun _ => ⟨exp, mant⟩⟩
  · simp [hm]
  · simp [he, exp32_decSubnormal_ne_max]
  · simp [he, exp32_decNormal_ne_max]

/-- Settles O42: for each converter by the cases of its rule. -/
theorem nanExactlyFromNan : Obligations.NanExactlyFromNan :=
  fun _ hp => ⟨class16_enc_eq_nan_iff hp.encNan, class32_dec_eq_nan_iff hp.decNan⟩

/-! ### The corner cases (R80) -/

/-- A binary32 pattern as a number, by its fields (R36). -/
theorem toNat_eq_fields32 (a : Single) :
    a.toNat = (sign32 a).toNat * 2 ^ 31 + (exp32 a).toNat * 2 ^ 23 + (mant32 a).toNat := by
  have bound := a.isLt
  simp only [sign32, exp32, mant32, toNat_extractLsb'_eq_div_mod]
  omega

/-- Zeros and subnormals are the patterns with a zero exponent (R37). -/
theorem exp32_eq_zero_of_class {a : Single} (ha : class32 a = .zero ∨ class32 a = .subnormal) :
    exp32 a = 0#8 := by
  by_contra he
  unfold class32 at ha
  split_ifs at ha <;> simp at ha

/-- The carry of the subnormal path: the kept value is full, so its tie rounds up (R73). -/
theorem enc_of_subnormal_carry (p : Params) {a : Single} (he : exp32 a = 112#8)
    (hm : 0x7FE000 ≤ (mant32 a).toNat) : enc p a = compose16 (sign32 a) 1#5 0#10 := by
  have lo : 102#8 ≤ exp32 a := by rw [he]; decide
  have hi : exp32 a ≤ 112#8 := by rw [he]; decide
  have bound := (mant32 a).isLt
  have he' : (exp32 a).toNat = 112 := congrArg BitVec.toNat he
  have full : subnormalKept a = 0x3FF#15 := by
    apply BitVec.eq_of_toNat_eq
    rw [toNat_subnormalKept hi, he', toNat_significand32, BitVec.toNat_ofNat]
    omega
  have round : (significand32 a).getLsbD 13 = true := by
    rw [getLsbD_significand32_of_lt a (by decide), getLsbD_eq_true_iff_div_mod]
    omega
  have up : RoundsUp (significand32 a) (126 - (exp32 a).toNat) ((subnormalKept a).getLsbD 0) := by
    rw [he', full]
    exact ⟨round, .inr rfl⟩
  rw [enc_of_subnormal_up p lo hi up, full, composeMag16_subnormal_carry]

/-- From 65520 to the infinity: the carry of `e32 = 142`, the overflow, and the infinity itself. -/
theorem enc_of_magnitude_range (p : Params) {a : Single} (lo : 0x477FF000#31 ≤ a.extractLsb' 0 31)
    (hi : a.extractLsb' 0 31 ≤ 0x7F800000#31) : enc p a = compose16 (sign32 a) 31#5 0#10 := by
  have number : (a.extractLsb' 0 31).toNat = (exp32 a).toNat * 2 ^ 23 + (mant32 a).toNat := by
    simp only [exp32, mant32, toNat_extractLsb'_eq_div_mod]
    omega
  have bound := (mant32 a).isLt
  by_cases carry : exp32 a = 142#8
  · obtain ⟨full, round⟩ := (carry_iff_le_toNat_mant32 a).mpr (by rw [carry] at number; bv_omega)
    rw [enc_of_normal_carry p (by rw [carry]; decide) (by rw [carry]; decide) full round, carry]
    rfl
  by_cases infinity : exp32 a = 255#8
  · refine enc_of_infinity p infinity (BitVec.eq_of_toNat_eq ?_)
    rw [infinity] at number
    bv_omega
  · exact enc_of_overflow p (by bv_omega) (by bv_omega)

/-- Settles O26: the delivery of `ENC(a)`, and each corner case by the path its operands take. -/
theorem f32tof16Operation : Obligations.F32tof16Operation := by
  refine ⟨fun a s => ⟨exec_f32tof16 a s, zext_half_upper_eq_zero _, encode_f32tof16_and_rowMask a⟩,
    fun a ha => ?zeros, fun a lo hi => ?smallest, fun a lo hi => ?subnormalCarry,
    fun a lo hi high => ?normalCarry, fun a lo hi => enc_of_magnitude_range _ lo hi, fun a ha => ?nan,
    by decide⟩
  case zeros =>
    rw [enc_of_underflow _ (by rw [exp32_eq_zero_of_class ha]; decide), ← composeMag16_append]
    rfl
  case nan => exact ⟨(class16_enc_eq_nan_iff hardware_encNanLaw a).mpr ha, sign16_enc _ a⟩
  all_goals
    have number := toNat_eq_fields32 a
    have mantBound := (mant32 a).isLt
  case smallest =>
    have he : exp32 a = 102#8 := by bv_omega
    have hs : sign32 a = 0#1 := by bv_omega
    have hm : mant32 a ≠ 0#23 := by bv_omega
    rw [enc_of_smallest _ he, hs, if_neg hm]
    decide
  case subnormalCarry =>
    have he : exp32 a = 112#8 := by bv_omega
    have hs : sign32 a = 0#1 := by bv_omega
    rw [enc_of_subnormal_carry _ he (by bv_omega), hs]
    decide
  case normalCarry =>
    have high' := congrArg BitVec.toNat high
    rw [toNat_extractLsb'_eq_div_mod] at high'
    obtain ⟨full, round⟩ := (carry_iff_le_toNat_mant32 a).mpr (by bv_omega)
    exact enc_of_normal_carry _ lo (by bv_omega) full round

end Sys2Proof.Machine
end

section
/-! PROOFS. No exception (60_exceptions.md R82): a transaction and a step answer a next state whatever the
input, the state they start from and the parameters, and so does this hardware at its own. -/

namespace Sys2Proof.Machine

/-- Settles O8: each next state is the transaction delivered or the blocks clocked, on inputs and states
that no hypothesis restricts. -/
theorem noTransactionRaisesAnything : Obligations.NoTransactionRaisesAnything := by
  refine ⟨fun i s => ?transaction, fun s => ?step, fun p i s => ?transactionWith, fun p s => ?stepWith⟩
  case transaction => exact ⟨_, exec_eq_delivered i s⟩
  case step => exact ⟨_, step_eq_next s⟩
  case transactionWith => exact ⟨_, execWith_eq p i s⟩
  case stepWith => exact ⟨_, stepWith_eq p s⟩

end Sys2Proof.Machine
end

section
/-! PROOFS. The pipeline of every implementation (70_reset_and_hazards.md R96): a step samples the inputs,
and a sample reaches the output `L` edges later. This hardware, at latency 0, has no hazard (R98). -/

namespace Sys2Proof.Machine

/-! ### A step samples the inputs -/

/-- Settles O60: a step clocks each block, and a clocked block puts its input before its older samples. -/
theorem stepSamplesTheInputs : Obligations.StepSamplesTheInputs := fun p s =>
  ⟨_, stepWith_eq_clock p s, Block.clock_pipe _ _ _ _, Block.clock_pipe _ _ _ _,
    Block.clock_pipe _ _ _ _, Block.clock_input _ _ _ _, Block.clock_input _ _ _ _,
    Block.clock_input _ _ _ _⟩

/-! ### A run of one block -/

/-- A run of one block: `β (n + 1)` is the block after edge `n`, at which `x n` is presented. -/
def Block.IsRun {ι ο : Type} (L : Nat) (f : ι → ο) (free : Nat → ο) (β : Nat → Block ι ο)
    (x : Nat → ι) : Prop :=
  ∀ n, β (n + 1) = (β n).transact L f free (x n)

section Block

variable {ι ο : Type} {L : Nat} {f : ι → ο} {free : Nat → ο} {β : Nat → Block ι ο} {x : Nat → ι}

/-- A transaction samples the input it presents. -/
@[simp] theorem Block.transact_pipe (b : Block ι ο) (y : ι) :
    (b.transact L f free y).pipe = (y :: b.pipe).take L :=
  Block.clock_pipe _ _ _ _

/-- Before edge `n + k` the input of edge `n` is the `k`-th of the samples, the one now presented being
the first: every edge moves it one place on, and it is kept for `L` edges. -/
theorem Block.IsRun.sample (run : Block.IsRun L f free β x) (n k : Nat) (hk : k ≤ L) :
    (x (n + k) :: (β (n + k)).pipe)[k]? = some (x n) := by
  induction k with
  | zero => rfl
  | succ k ih =>
    calc (x (n + (k + 1)) :: (β (n + (k + 1))).pipe)[k + 1]?
      _ = (β (n + k + 1)).pipe[k]? := List.getElem?_cons_succ
      _ = ((x (n + k) :: (β (n + k)).pipe).take L)[k]? := by rw [run, Block.transact_pipe]
      _ = (x (n + k) :: (β (n + k)).pipe)[k]? := List.getElem?_take_of_lt hk
      _ = some (x n) := ih (Nat.le_of_succ_le hk)

/-- At edge `n + L` the input of edge `n` is the one the output is computed from (R96). -/
theorem Block.IsRun.output (run : Block.IsRun L f free β x) (n : Nat) :
    (β (n + L + 1)).output = f (x n) := by
  rw [run]
  exact Block.clock_output_of_sample _ _ _ _ (run.sample n L le_rfl)

end Block

/-! ### A run of the machine is a run of each block -/

section HostRun

variable {p : Params} {σ : Nat → State} {x : Nat → CodecIn} {a : Nat → Single} {h : Nat → Half}

/-- The host drives the three inputs and the edge clocks the three blocks, so each block runs a
transaction on the input driven on it. -/
theorem HostRun.succ_eq (run : HostRun p σ x a h) (n : Nat) :
    σ (n + 1) =
      { codec := (σ n).codec.transact p.latency (codecOut p) Config.freeDout (x n)
        encoder := (σ n).encoder.transact p.latency (enc p) Config.freeF16Out (a n)
        decoder := (σ n).decoder.transact p.latency (dec p) Config.freeF32Out (h n) } :=
  Host.Outcome.next.inj ((run n).symm.trans (stepWith_eq_clock p _))

theorem HostRun.codec (run : HostRun p σ x a h) :
    Block.IsRun p.latency (codecOut p) Config.freeDout (fun n => (σ n).codec) x :=
  fun n => congrArg State.codec (run.succ_eq n)

theorem HostRun.encoder (run : HostRun p σ x a h) :
    Block.IsRun p.latency (enc p) Config.freeF16Out (fun n => (σ n).encoder) a :=
  fun n => congrArg State.encoder (run.succ_eq n)

theorem HostRun.decoder (run : HostRun p σ x a h) :
    Block.IsRun p.latency (dec p) Config.freeF32Out (fun n => (σ n).decoder) h :=
  fun n => congrArg State.decoder (run.succ_eq n)

end HostRun

/-- Settles O54: each block delivers the sample of `L` edges back; that of the codec holds `op` and `din`
together, and `codecOut` selects by that `op` (R49). -/
theorem pipelineDeliversAfterLatency : Obligations.PipelineDeliversAfterLatency :=
  fun _ _ _ _ _ run n => ⟨run.codec.output n, run.encoder.output n, run.decoder.output n⟩

/-! ### Latency 0 has no hazard -/

/-- Settles O57: a read at latency 0 computes the output afresh, and a delivery under one `op` leaves
nothing that a transaction under the other would see. -/
theorem hardwareHasNoHazard : Obligations.HardwareHasNoHazard := by
  obtain ⟨-, -, -, -, reads⟩ := outputsFollowInputs
  refine ⟨reads, fun a b x y h s => ?_⟩
  have encoded := exec_eq_delivered (.f32tof16 a) s
  have decoded := exec_eq_delivered (.f16tof32 y h) s
  exact ⟨_, encoded, exec_delivered (.f16tof32 x h) s _ _, _, decoded,
    exec_delivered (.f32tof16 b) s _ _⟩

end Sys2Proof.Machine
end

section
/-! PROOFS. The pipeline of every implementation (70_reset_and_hazards.md R97, R99): it fills by one sample at
every edge, its outputs are free values until it is full, and no result can be read before its edge. -/

namespace Sys2Proof.Machine

/-! ### A step keeps the pipelines in order -/

section Block

variable {ι ο : Type} {L : Nat} {f : ι → ο} {free : Nat → ο} {b : Block ι ο}

/-- Latency 0 keeps no sample and counts no edge. Otherwise an edge adds one sample up to `L`, and while fewer
than `L` were held before it, no input reaches the output and a free value is drawn. -/
theorem Block.PipelineOk.clock (hb : b.PipelineOk L free) : (b.clock L f free).PipelineOk L free := by
  obtain ⟨samples, edgeZero, -⟩ := hb
  by_cases hL : L = 0
  · subst hL
    exact ⟨(Nat.min_zero _).symm, edgeZero, fun h => absurd rfl h⟩
  have edge : (b.clock L f free).edge = b.edge + 1 := (Block.clock_edge L f free b).trans (if_neg hL)
  refine ⟨?samples, fun h => absurd h hL, fun _ inWindow => ?window⟩
  case samples =>
    rw [Block.clock_pipe, List.length_take, List.length_cons, samples, edge]
    omega
  case window =>
    have filling : b.pipe.length < L := by omega
    obtain ⟨output, draws⟩ := Block.clock_output_of_window L f free b filling
    exact ⟨b.draws, by omega, output⟩

end Block

/-- A step clocks each of the three blocks. -/
theorem PipelineInv.step {p : Params} {s t : State} (hs : PipelineInv p s) (hst : stepWith p s = .next t) :
    PipelineInv p t := by
  obtain ⟨codec, encoder, decoder⟩ := hs
  obtain rfl := Host.Outcome.next.inj ((stepWith_eq_clock p s).symm.trans hst)
  exact ⟨codec.clock, encoder.clock, decoder.clock⟩

/-- Settles O52: each of the three blocks is in order after its own edge. -/
theorem stepKeepsPipelineInv : Obligations.StepKeepsPipelineInv :=
  fun _ _ _ hs hst => hs.step hst

/-! ### A run of one block from its first edge -/

section Block

variable {ι ο : Type} {L : Nat} {f : ι → ο} {free : Nat → ο} {β : Nat → Block ι ο} {x : Nat → ι}

/-- A block whose numbering of edges starts anew, with the free value of index `d` on its output: a block
at power-up or after a reset pulse (R97). -/
def Block.StartsWindow (free : Nat → ο) (d : Nat) (b : Block ι ο) : Prop :=
  b.pipe = [] ∧ b.output = free d ∧ b.draws = d + 1

theorem Block.startsWindow_powerUp (hL : L ≠ 0) (d : Nat) (y : ι) :
    (Block.powerUp L f free d y).StartsWindow free d := by
  rw [Block.powerUp_of_ne_zero hL]
  exact ⟨rfl, rfl, rfl⟩

theorem Block.startsWindow_resetPulse (hL : L ≠ 0) (b : Block ι ο) :
    (b.resetPulse L free).StartsWindow free b.draws := by
  rw [Block.resetPulse_of_ne_zero hL]
  exact ⟨rfl, rfl, rfl⟩

/-- In the `n`-th cycle of a window `n` samples are held and the free values up to index `d + n` drawn. -/
theorem Block.IsRun.window (run : Block.IsRun L f free β x) {d : Nat} (start : (β 0).StartsWindow free d)
    (n : Nat) (hn : n ≤ L) :
    (β n).pipe.length = n ∧ (β n).output = free (d + n) ∧ (β n).draws = d + n + 1 := by
  induction n with
  | zero =>
    obtain ⟨pipe, output, draws⟩ := start
    exact ⟨congrArg List.length pipe, output, draws⟩
  | succ n ih =>
    obtain ⟨pipe, -, draws⟩ := ih (Nat.le_of_succ_le hn)
    have filling : (β n).pipe.length < L := by omega
    obtain ⟨output, drawn⟩ := Block.clock_output_of_window L f free { β n with input := x n } filling
    rw [run n]
    refine ⟨?_, output.trans (congrArg free draws), drawn.trans (congrArg (· + 1) draws)⟩
    rw [Block.transact_pipe, List.length_take, List.length_cons, pipe]
    omega

theorem Block.IsRun.window_output (run : Block.IsRun L f free β x) {d : Nat}
    (start : (β 0).StartsWindow free d) {n : Nat} (hn : n ≤ L) : (β n).output = free (d + n) := by
  obtain ⟨-, output, -⟩ := run.window start n hn
  exact output

/-- Under a latency every edge is counted. -/
theorem Block.IsRun.edge (run : Block.IsRun L f free β x) (hL : L ≠ 0) (start : (β 0).edge = 0) (n : Nat) :
    (β n).edge = n := by
  induction n with
  | zero => exact start
  | succ n ih =>
    calc (β (n + 1)).edge
      _ = nextEdge L (β n).edge := (congrArg Block.edge (run n)).trans (Block.clock_edge _ _ _ _)
      _ = n + 1 := (if_neg hL).trans (congrArg (· + 1) ih)

/-- Up to edge `n + L` a read of the result of edge `n` is stuck (R99). -/
theorem Block.IsRun.read_early (run : Block.IsRun L f free β x) (hL : L ≠ 0) (start : (β 0).edge = 0)
    {n m : Nat} (early : m ≤ n + L) : (β m).read L f n = .fault .earlyRead :=
  (if_neg hL).trans (if_pos ((run.edge hL start m).trans_le early))

/-- In the cycle after edge `n + L` the read gives that result. -/
theorem Block.IsRun.read_delivered (run : Block.IsRun L f free β x) (hL : L ≠ 0) (start : (β 0).edge = 0)
    (n : Nat) : (β (n + L + 1)).read L f n = .next (f (x n)) := by
  have passed : ¬ (β (n + L + 1)).edge ≤ n + L := by
    rw [run.edge hL start]
    omega
  exact (if_neg hL).trans ((if_neg passed).trans (congrArg _ (run.output n)))

end Block

/-! ### A run of the machine from its first edge -/

/-- Settles O55: each of the three blocks starts a window, at the index its own draws have reached after a
reset pulse, and at the index given at power-up. -/
theorem windowOutputsAreFree : Obligations.WindowOutputsAreFree := by
  refine fun p σ x a h hL run => ⟨fun s start n hn => ?resetPulse, fun d x₀ a₀ h₀ start n hn => ?powerUp⟩
  case resetPulse =>
    exact ⟨run.codec.window_output (start ▸ Block.startsWindow_resetPulse hL s.codec) hn,
      run.encoder.window_output (start ▸ Block.startsWindow_resetPulse hL s.encoder) hn,
      run.decoder.window_output (start ▸ Block.startsWindow_resetPulse hL s.decoder) hn⟩
  case powerUp =>
    exact ⟨run.codec.window_output (start ▸ Block.startsWindow_powerUp hL d x₀) hn,
      run.encoder.window_output (start ▸ Block.startsWindow_powerUp hL d a₀) hn,
      run.decoder.window_output (start ▸ Block.startsWindow_powerUp hL d h₀) hn⟩

/-- The host's driving and the edges of a run keep the pipelines in order. -/
theorem HostRun.pipelineInv {p : Params} {σ : Nat → State} {x : Nat → CodecIn} {a : Nat → Single}
    {h : Nat → Half} (run : HostRun p σ x a h) (start : PipelineInv p (σ 0)) (n : Nat) :
    PipelineInv p (σ n) := by
  obtain ⟨-, -, driven⟩ := hostActionsKeepPipelineInv
  induction n with
  | zero => exact start
  | succ n ih => exact (driven p (x n) (a n) (h n) (σ n) ih).step (run n)

/-- Settles O56: the reads by the count of edges; up to edge `L` the port shows the free value of the
pipeline's order, and from then on the result of the edge `L` before the last. -/
theorem earlyReadIsStuck : Obligations.EarlyReadIsStuck := by
  refine fun p σ x a h hL start codec encoder decoder run n m => ⟨fun early => ?early, ?delivered⟩
  case early =>
    refine ⟨run.codec.read_early hL codec early, run.encoder.read_early hL encoder early,
      run.decoder.read_early hL decoder early, ?port⟩
    by_cases window : m ≤ p.latency
    · obtain ⟨⟨-, -, free⟩, -, -⟩ := run.pipelineInv start m
      have edge : (σ m).codec.edge = m := run.codec.edge hL codec m
      obtain ⟨k, -, output⟩ := free hL (edge.trans_le window)
      exact .inr ⟨window, k, output⟩
    · obtain ⟨k, rfl⟩ := Nat.exists_eq_add_of_lt (Nat.lt_of_not_le window)
      have cycle : p.latency + k + 1 = k + p.latency + 1 := by omega
      rw [cycle]
      exact .inl ⟨k, by omega, run.codec.output k, rfl⟩
  case delivered =>
    rintro rfl
    exact ⟨run.codec.read_delivered hL codec n, run.encoder.read_delivered hL encoder n,
      run.decoder.read_delivered hL decoder n⟩

/-! ### Power-up of this hardware -/

/-- At latency 0 the outputs are the function of the inputs at power-up (R23), by `Block.powerUp_zero` for
each of the three blocks, and nothing is held. -/
theorem hardwareInv_powerUp (d : Nat) (x : CodecIn) (a : Single) (h : Half) :
    HardwareInv (State.powerUp Params.hardware d x a h) :=
  ⟨⟨rfl, rfl, rfl⟩, ⟨rfl, rfl, rfl⟩, ⟨rfl, rfl, rfl⟩, ⟨rfl, rfl, rfl⟩⟩

/-- The outputs of `State.reset` are what both conversions give for a zero. -/
theorem reset_eq_powerUp : State.reset = State.powerUp Params.hardware 0 ⟨0#1, 0#32⟩ 0#32 0#16 := by
  decide

/-- Settles O51: reset is a power-up, and every power-up meets the invariant. -/
theorem resetOutputsAreValid : Obligations.ResetOutputsAreValid :=
  ⟨reset_eq_powerUp ▸ hardwareInv_powerUp 0 _ _ _, reset_eq_powerUp, hardwareInv_powerUp⟩

end Sys2Proof.Machine
end

section
/-! PROOFS. Words written by hand, assembled (30_encoding.md R47) and driven wire by wire
(20_memory.md R24; 93_implementation_defined.md I6). -/

namespace Sys2Proof.Machine

/-- Settles O1: the words are closed, and each is decoded or encoded by evaluation. -/
theorem handWrittenWordsDecode : Obligations.HandWrittenWordsDecode := by
  refine ⟨?one, ?negInfinity, ?half, ?ignoredBits, ?tooWide, ?oneBack, ?halfBack⟩ <;> decide

/-! ### The assembler -/

/-- A literal of the operand's width assembles to `{op, din}` (R47). -/
theorem assemble_of_fits {m : Mnemonic} {n : Nat} (fits : n < 2 ^ m.srcWidth) :
    assemble ⟨m, n⟩ = some (wordOf m.op (BitVec.ofNat 32 n)) :=
  if_pos (decide_eq_true fits)

/-- A wider literal has no word (log 16). -/
theorem assemble_of_too_wide {m : Mnemonic} {n : Nat} (wide : 2 ^ m.srcWidth ≤ n) :
    assemble ⟨m, n⟩ = none :=
  if_neg fun fits => Nat.not_lt_of_le wide (of_decide_eq_true fits)

/-- A 16-bit literal stands on `din` below zeros. -/
theorem ofNat_half_literal {n : Nat} (hn : n < 2 ^ 16) :
    BitVec.ofNat 32 n = 0#16 ++ BitVec.ofNat 16 n := by
  have zext : (BitVec.ofNat 16 n).setWidth 32 = 0#16 ++ BitVec.ofNat 16 n :=
    BitVec.setWidth_eq_append (by decide)
  rw [← zext, BitVec.setWidth_ofNat_of_le_of_lt (by decide) hn]

/-- Settles O5: the three mnemonics of an operation have one `op` and one operand width, so one rule says what
each of the six assembles to. -/
theorem assemblerLinesEncodeTheirOperation : Obligations.AssemblerLinesEncodeTheirOperation := by
  refine ⟨fun n => ⟨rfl, rfl, rfl, rfl⟩, fun n hn => ?single, fun n hn => ?half,
    fun n wide => ⟨assemble_of_too_wide wide, assemble_of_too_wide wide, assemble_of_too_wide wide⟩,
    fun n wide => ⟨assemble_of_too_wide wide, assemble_of_too_wide wide, assemble_of_too_wide wide⟩⟩
  case single =>
    rw [assemble_of_fits hn, encode_eq_wordOf]
    rfl
  case half =>
    rw [assemble_of_fits hn, encode_eq_wordOf, ofNat_half_literal hn]
    rfl

/-! ### The wires -/

/-- A wire that carries no bit leaves the number unknown (R21). -/
theorem levelsToNat_eq_none {l : Level} (hl : l.bit = none) :
    ∀ {ls : List Level}, l ∈ ls → levelsToNat ls = none
  | k :: ks, hmem => by
    rcases List.mem_cons.mp hmem with rfl | later
    · rw [levelsToNat, hl]
    · rw [levelsToNat, levelsToNat_eq_none hl later]
      cases k.bit <;> rfl

/-- The level a known bit puts on its wire. -/
def bitLevel (b : Bool) : Level := if b then .high else .low

/-- A known wire below a known number is its digit. -/
theorem levelsToNat_bitLevel_cons (b : Bool) {ls : List Level} {n : Nat} (hn : levelsToNat ls = some n) :
    levelsToNat (bitLevel b :: ls) = some (b.toNat + 2 * n) := by
  rw [levelsToNat, hn]
  cases b <;> rfl

/-- The wires of the `w` low bits of a number carry that number, modulo `2^w`. -/
theorem levelsToNat_ofFn_testBit (w n : Nat) :
    levelsToNat (List.ofFn fun i : Fin w => bitLevel (n.testBit i)) = some (n % 2 ^ w) := by
  induction w generalizing n with
  | zero => simp [levelsToNat, Nat.mod_one]
  | succ w ih =>
    have tail := ih (n / 2)
    simp only [Nat.testBit_div_two] at tail
    have digits : (n.testBit 0).toNat + 2 * (n / 2 % 2 ^ w) = n % 2 ^ (w + 1) := by
      rw [Nat.toNat_testBit, pow_zero, Nat.div_one, pow_succ', Nat.mod_mul]
    rw [List.ofFn_succ, ← digits]
    exact levelsToNat_bitLevel_cons _ tail

/-- The 33 levels of a word carry the word. -/
theorem levelsToNat_of_word (t : TWord) :
    levelsToNat (Vector.ofFn fun i : Fin 33 => bitLevel (t.getLsbD i)).toList = some t.toNat := by
  have wires := levelsToNat_ofFn_testBit 33 t.toNat
  rw [Nat.mod_eq_of_lt t.isLt] at wires
  rwa [Vector.toList_ofFn]

/-- Wires that carry a number drive its 33 bits. -/
theorem driveLevels_of_some (p : Params) {wires : Vector Level 33} {n : Nat}
    (hn : levelsToNat wires.toList = some n) (s : State) :
    driveLevels p wires s = .next (s.withWord p (BitVec.ofNat 33 n)) := by
  unfold driveLevels
  rw [hn]
  rfl

theorem driveLevels_of_none (p : Params) {wires : Vector Level 33} (hn : levelsToNat wires.toList = none)
    (s : State) : driveLevels p wires s = .refused .unknownInput := by
  unfold driveLevels
  rw [hn]

/-- Settles O14: one wire without a bit leaves no number to drive, and the levels of a word carry that
word. -/
theorem unknownInputsAreRefused : Obligations.UnknownInputsAreRefused := by
  refine ⟨fun p wires s ⟨i, hi, level⟩ => ?refused, fun p t s => ?driven⟩
  case refused =>
    have noBit : wires[i].bit = none := by
      rcases level with level | level <;> rw [level] <;> rfl
    exact driveLevels_of_none p
      (levelsToNat_eq_none noBit (Vector.mem_toList_iff.mpr (Vector.getElem_mem hi))) s
  case driven =>
    refine ⟨_, driveLevels_of_some p (levelsToNat_of_word t) s, ?_⟩
    rw [State.withWord_op, State.withWord_din, wordOf_fields, BitVec.ofNat_toNat, BitVec.setWidth_eq]

end Sys2Proof.Machine
end

section
/-! PROOFS. Classes by ranges of patterns (30_encoding.md R35), the quiet bit of this hardware's NaNs (R39),
the sign of `ENC` (42_fp32_to_fp16.md R77(c)) and the exponents of `DEC` (41_fp16_to_fp32.md R57, R60). -/

namespace Sys2Proof.Machine

/-! ### The classes by their fields -/

/-- The classes other than NaN by their fields (R35). -/
theorem class16_iff_fields (h : Half) :
    (class16 h = .zero ↔ exp16 h = 0#5 ∧ mant16 h = 0#10) ∧
    (class16 h = .subnormal ↔ exp16 h = 0#5 ∧ mant16 h ≠ 0#10) ∧
    (class16 h = .normal ↔ exp16 h ≠ 31#5 ∧ exp16 h ≠ 0#5) ∧
    (class16 h = .infinity ↔ exp16 h = 31#5 ∧ mant16 h = 0#10) := by
  unfold class16
  split_ifs <;> simp [*]

theorem class32_eq_subnormal_iff (a : Single) :
    class32 a = .subnormal ↔ exp32 a = 0#8 ∧ mant32 a ≠ 0#23 := by
  unfold class32
  split_ifs <;> simp [*]

/-! ### The ranges of binary16 patterns -/

/-- Setting bit 15 changes no field but the sign. -/
theorem exp16_sign_or {h : Half} : exp16 (0x8000#16 ||| h) = exp16 h := by
  simp [exp16, BitVec.extractLsb'_or]

theorem mant16_sign_or {h : Half} : mant16 (0x8000#16 ||| h) = mant16 h := by
  simp [mant16, BitVec.extractLsb'_or]

/-- Settles O45: a positive pattern is the number its exponent and significand make up, and the class and
magnitude see those two fields alone. -/
theorem halfClassesByRange : Obligations.HalfClassesByRange := by
  refine ⟨fun h hh => ?ranges, ?minSubnormal, ?maxSubnormal, ?minNormal, ?maxFinite⟩
  case ranges =>
    have number := toNat_eq_fields16 h
    have expBound := (exp16 h).isLt
    have mantBound := (mant16 h).isLt
    obtain ⟨zero, subnormal, normal, infinity⟩ := class16_iff_fields h
    rw [zero, subnormal, normal, infinity, class16_eq_nan_iff, class16, class16, magnitude16, magnitude16,
      exp16_sign_or, mant16_sign_or]
    refine ⟨?_, ?_, ?_, ?_, ?_, rfl, rfl⟩ <;> bv_omega
  all_goals rw [magnitude16_eq_units]
  case minSubnormal => rw [(by decide : units16 0x0001#16 = 1)]; norm_num
  case maxSubnormal => rw [(by decide : units16 0x03FF#16 = 1023)]; norm_num
  case minNormal => rw [(by decide : units16 0x0400#16 = 1024)]; norm_num
  case maxFinite => rw [(by decide : units16 0x7BFF#16 = 65504 * 2 ^ 24)]; norm_num

/-! ### NaN results of this hardware -/

/-- Settles O44: the quiet bit is bit 9 of the significand `ENC_NAN_MANT` gives, and bit 22 of the pattern
`DEC_NAN_BITS` gives, on this hardware. -/
theorem hardwareNansAreQuiet : Obligations.HardwareNansAreQuiet := by
  refine ⟨fun a ha => ?encoded, fun h hh => ?decoded⟩
  case encoded =>
    obtain ⟨he, hm⟩ := (class32_eq_nan_iff a).mp ha
    rw [enc_of_nan _ he hm, mant16_compose16]
    exact encNanMantDefault_getLsbD_nine _
  case decoded =>
    obtain ⟨he, hm⟩ := (class16_eq_nan_iff h).mp hh
    rw [dec_hardware_of_nan he hm, mant32_compose32]
    rfl

/-! ### Zeros and subnormals, and the sign of `ENC` -/

/-- Settles O35: a zero exponent takes the last path of R64. -/
theorem encodeZerosAndSubnormals : Obligations.EncodeZerosAndSubnormals := fun a s ha =>
  exec_f32tof16_of_enc_eq (enc_of_underflow _ (by rw [exp32_eq_zero_of_class ha]; decide)) s

/-- Below the sign `ENC` sees the exponent and the significand alone. -/
theorem enc_magnitude_congr (p : Params) {a b : Single} (he : exp32 a = exp32 b)
    (hm : mant32 a = mant32 b) : (enc p a).extractLsb' 0 15 = (enc p b).extractLsb' 0 15 := by
  unfold enc
  dsimp only
  rw [he, hm]
  split_ifs <;> simp [encNormal, encSubnormal]

/-- A binary16 pattern is its sign above its magnitude. -/
theorem composeMag16_fields (h : Half) : composeMag16 (sign16 h) (h.extractLsb' 0 15) = h :=
  (BitVec.extractLsb'_append_extractLsb'_eq_extractLsb' rfl).trans BitVec.extractLsb'_eq_self

/-- Settles O39: the flipped bit is the sign, which the result takes over, and the rest of the result does not
see it. -/
theorem encodeIsSignSymmetric : Obligations.EncodeIsSignSymmetric := by
  intro p a
  have exp : exp32 (a ^^^ 0x80000000#32) = exp32 a := by
    simp [exp32, BitVec.extractLsb'_xor]
  have mant : mant32 (a ^^^ 0x80000000#32) = mant32 a := by
    simp [mant32, BitVec.extractLsb'_xor]
  have sign : sign32 (a ^^^ 0x80000000#32) = sign32 a ^^^ 1#1 := by
    simp [sign32, BitVec.extractLsb'_xor]
  calc enc p (a ^^^ 0x80000000#32)
    _ = composeMag16 (sign32 a ^^^ 1#1) ((enc p a).extractLsb' 0 15 ^^^ 0#15) := by
      rw [← composeMag16_fields (enc p _), sign16_enc, sign, enc_magnitude_congr p exp mant,
        BitVec.xor_zero]
    _ = composeMag16 (sign16 (enc p a)) ((enc p a).extractLsb' 0 15) ^^^ 0x8000#16 := by
      rw [sign16_enc]
      exact BitVec.xor_append.symm
    _ = enc p a ^^^ 0x8000#16 := by rw [composeMag16_fields]

/-! ### The subnormals of `DEC` (R57) -/

/-- Bit `p` is the leading one of `v`. -/
def IsLeadingOne {w : Nat} (v : BitVec w) (p : Nat) : Prop :=
  v.getLsbD p = true ∧ ∀ j, p < j → v.getLsbD j = false

/-- The index of the model is that of the leading one, where there is one (R9). -/
theorem isLeadingOne_msbIndex {w : Nat} {v : BitVec w} (hv : ∃ j, v.getLsbD j = true) :
    IsLeadingOne v (msbIndex v) := by
  obtain ⟨j, hj⟩ := hv
  obtain ⟨set, none⟩ := msbBelow_spec v w ⟨j, BitVec.lt_of_getLsbD hj, hj⟩
  refine ⟨set, fun i hi => ?_⟩
  by_cases inside : i < w
  · exact none i hi inside
  · exact BitVec.getLsbD_of_ge v i (Nat.le_of_not_lt inside)

theorem exists_getLsbD_of_ne_zero {w : Nat} {v : BitVec w} (hv : v ≠ 0#w) : ∃ j, v.getLsbD j = true := by
  by_contra none
  refine hv (BitVec.eq_of_getLsbD_eq fun j _ => ?_)
  rw [BitVec.getLsbD_zero]
  exact Bool.eq_false_iff.mpr fun bit => none ⟨j, bit⟩

section LeadingOne

variable {w p : Nat} {v : BitVec w} (hp : IsLeadingOne v p)
include hp

theorem IsLeadingOne.lt : p < w := by
  obtain ⟨set, -⟩ := hp
  exact BitVec.lt_of_getLsbD set

/-- No two bits are the leading one. -/
theorem IsLeadingOne.msbIndex_eq : msbIndex v = p := by
  obtain ⟨set, none⟩ := hp
  obtain ⟨set', none'⟩ := isLeadingOne_msbIndex ⟨p, set⟩
  rcases Nat.lt_trichotomy (msbIndex v) p with lt | eq | gt
  · exact Bool.noConfusion (set.symm.trans (none' p lt))
  · exact eq
  · exact Bool.noConfusion (set'.symm.trans (none _ gt))

/-- The number lies in the binade of its leading one. -/
theorem IsLeadingOne.toNat_bounds : 2 ^ p ≤ v.toNat ∧ v.toNat < 2 ^ (p + 1) := by
  obtain ⟨set, none⟩ := hp
  exact ⟨Nat.ge_two_pow_of_testBit set, Nat.lt_pow_two_of_testBit _ fun j hj => none j hj⟩

end LeadingOne

section Subnormal

variable {m : BitVec 10} {p : Nat} (hp : IsLeadingOne m p)
include hp

/-- The shift of R57 drops the leading one and brings the bits below it to the top of the significand. -/
theorem IsLeadingOne.toNat_justified :
    (m <<< (10 - p) ++ 0#13 : BitVec 23).toNat = (m.toNat - 2 ^ p) * 2 ^ (23 - p) := by
  obtain ⟨lo, hi⟩ := hp.toNat_bounds
  have top := hp.lt
  have places : 10 - p + 13 = 23 - p := by omega
  obtain ⟨r, hr⟩ := Nat.exists_eq_add_of_le lo
  have rest : r * 2 ^ (10 - p) < 2 ^ 10 :=
    calc r * 2 ^ (10 - p)
      _ < 2 ^ p * 2 ^ (10 - p) := Nat.mul_lt_mul_of_pos_right (by omega) (Nat.two_pow_pos _)
      _ = 2 ^ 10 := by rw [← pow_add]; congr 1; omega
  have shifted : (m <<< (10 - p)).toNat = r * 2 ^ (10 - p) := by
    have whole : m.toNat * 2 ^ (10 - p) = 2 ^ 10 + r * 2 ^ (10 - p) := by
      rw [hr, Nat.add_mul, ← pow_add]
      congr 2
      omega
    rw [BitVec.toNat_shiftLeft, Nat.shiftLeft_eq, whole, Nat.add_mod_left, Nat.mod_eq_of_lt rest]
  rw [toNat_append_eq_mul_add, shifted, hr, Nat.add_sub_cancel_left, mul_assoc, ← pow_add, places]
  rfl

/-- The fields of a decoded subnormal (R57). -/
theorem IsLeadingOne.fields_decSubnormal (s : BitVec 1) :
    sign32 (decSubnormal s m) = s ∧ (exp32 (decSubnormal s m)).toNat = 103 + p ∧
      (mant32 (decSubnormal s m)).toNat = (m.toNat - 2 ^ p) * 2 ^ (23 - p) := by
  have top := hp.lt
  unfold decSubnormal
  rw [hp.msbIndex_eq, sign32_compose32, exp32_compose32, mant32_compose32, BitVec.toNat_ofNat]
  exact ⟨rfl, by omega, hp.toNat_justified⟩

end Subnormal

theorem dec_of_subnormal (p : Params) {h : Half} (he : exp16 h = 0#5) (hm : mant16 h ≠ 0#10) :
    dec p h = decSubnormal (sign16 h) (mant16 h) :=
  (dec_of_finite p (by rw [he]; decide)).trans ((if_neg fun c => hm c.2).trans (if_pos he))

/-- A decoded nonzero subnormal has its fields at the leading one of its significand. -/
theorem exists_fields_dec_of_subnormal (p : Params) {h : Half} (he : exp16 h = 0#5)
    (hm : mant16 h ≠ 0#10) : ∃ i, i < 10 ∧ 2 ^ i ≤ (mant16 h).toNat ∧ sign32 (dec p h) = sign16 h ∧
      (exp32 (dec p h)).toNat = 103 + i ∧
      (mant32 (dec p h)).toNat = ((mant16 h).toNat - 2 ^ i) * 2 ^ (23 - i) := by
  have lead := isLeadingOne_msbIndex (exists_getLsbD_of_ne_zero hm)
  obtain ⟨lo, -⟩ := lead.toNat_bounds
  rw [dec_of_subnormal p he hm]
  exact ⟨_, lead.lt, lo, lead.fields_decSubnormal _⟩

/-- Settles O19: the hypotheses say that `p` is the leading one of a significand that is not zero. -/
theorem decodeSubnormal : Obligations.DecodeSubnormal := by
  intro x h s p he lead above
  have hp : IsLeadingOne (mant16 h) p := ⟨lead, above⟩
  have hm : mant16 h ≠ 0#10 := fun zero => by simp [zero] at lead
  exact ⟨Nat.le_of_lt_succ hp.lt, _, exec_f16tof32_of_dec_eq (dec_of_subnormal _ he hm) x s,
    hp.fields_decSubnormal _⟩

/-- Settles O23: a decoded subnormal has the exponent `103 + i` with `i` below 10, a decoded normal
`e16 + 112`, and no other result but a zero has a zero exponent. -/
theorem decodeNeverSubnormal : Obligations.DecodeNeverSubnormal := by
  intro p h hp
  obtain ⟨-, subnormal, normal, -⟩ := class16_iff_fields h
  rw [Ne, class32_eq_subnormal_iff, subnormal, normal]
  rcases dec_cases p h with ⟨he, hm, path⟩ | ⟨he, hm, path⟩ | ⟨he, hm, path⟩ | ⟨he, hm, -⟩ | ⟨he, he', path⟩
  case inr.inr.inr.inl =>
    obtain ⟨i, hi, -, -, exp, -⟩ := exists_fields_dec_of_subnormal p he hm
    exact ⟨fun ⟨zero, _⟩ => by rw [zero] at exp; bv_omega, fun _ => by omega⟩
  case inr.inr.inr.inr =>
    have rebias := toNat_rebias (exp16 h)
    rw [path, decNormal, exp32_compose32]
    exact ⟨fun ⟨zero, _⟩ => by bv_omega, fun _ => by bv_omega⟩
  case inr.inl =>
    obtain ⟨exp, -, -⟩ := hp.decNan (sign16 h) (mant16 h)
    have exp' : exp32 (dec p h) = 255#8 := by rw [path]; exact exp
    simp [exp', he]
  all_goals simp [path, he, hm]

end Sys2Proof.Machine
end

section
/-! PROOFS. The values of both formats on one grid (30_encoding.md R35, R37): in units of `2^-149` every value
is a signed whole number, and the order of patterns is that of the numbers. `DEC` keeps the number
(41_fp16_to_fp32.md R60). -/

namespace Sys2Proof.Machine

/-! ### Magnitudes as numbers, in the order of their patterns -/

/-- The magnitude of a pattern `v` with `w` significand bits, in units of its format's smallest subnormal. -/
def gridUnits (w v : Nat) : Nat :=
  if v / 2 ^ w = 0 then v % 2 ^ w else (2 ^ w + v % 2 ^ w) * 2 ^ (v / 2 ^ w - 1)

section Grid

variable {w m : Nat}

/-- The two formulas of R35 and R37, by the exponent `e` and the significand `m`. -/
theorem gridUnits_of_fields (e : Nat) (hm : m < 2 ^ w) :
    gridUnits w (e * 2 ^ w + m) = if e = 0 then m else (2 ^ w + m) * 2 ^ (e - 1) := by
  have exp : (e * 2 ^ w + m) / 2 ^ w = e := by
    rw [mul_comm, Nat.mul_add_div (Nat.two_pow_pos w), Nat.div_eq_of_lt hm, Nat.add_zero]
  have mant : (e * 2 ^ w + m) % 2 ^ w = m := by
    rw [mul_comm, Nat.mul_add_mod, Nat.mod_eq_of_lt hm]
  unfold gridUnits
  rw [exp, mant]

/-- The next pattern is one unit in the last place away; the last of a binade is followed by the first of the
next. -/
theorem gridUnits_succ (w v : Nat) : gridUnits w (v + 1) = gridUnits w v + 2 ^ (v / 2 ^ w - 1) := by
  obtain ⟨hm, split⟩ : v % 2 ^ w < 2 ^ w ∧ v / 2 ^ w * 2 ^ w + v % 2 ^ w = v :=
    ⟨Nat.mod_lt v (Nat.two_pow_pos w), Nat.div_add_mod' v (2 ^ w)⟩
  generalize v / 2 ^ w = e at *
  generalize v % 2 ^ w = m at *
  subst split
  rw [gridUnits_of_fields e hm]
  rcases Nat.lt_or_ge (m + 1) (2 ^ w) with inside | last
  · rw [Nat.add_assoc, gridUnits_of_fields e inside]
    cases e with
    | zero => rfl
    | succ e => simp only [Nat.succ_ne_zero, if_false, Nat.add_sub_cancel]; ring
  · have full : m + 1 = 2 ^ w := by omega
    have next : e * 2 ^ w + m + 1 = (e + 1) * 2 ^ w + 0 := by rw [Nat.add_assoc, full]; ring
    rw [next, gridUnits_of_fields (e + 1) (Nat.two_pow_pos w), if_neg (Nat.succ_ne_zero e), ← full]
    cases e with
    | zero => simp
    | succ e => simp only [Nat.succ_ne_zero, if_false, Nat.add_sub_cancel]; ring

theorem gridUnits_strictMono (w : Nat) : StrictMono (gridUnits w) :=
  strictMono_nat_of_lt_succ fun v => by
    rw [gridUnits_succ]
    exact Nat.lt_add_of_pos_right (Nat.two_pow_pos _)

end Grid

/-! ### The rank of a pattern: exponent and significand as one number (R64) -/

/-- The rank of a binary16 pattern among the magnitudes of its format. -/
def rank16 (h : Half) : Nat := (h.extractLsb' 0 15).toNat

/-- The rank of a binary32 pattern among the magnitudes of its format. -/
def rank32 (a : Single) : Nat := (a.extractLsb' 0 31).toNat

theorem rank16_eq_fields (h : Half) : rank16 h = (exp16 h).toNat * 2 ^ 10 + (mant16 h).toNat := by
  simp only [rank16, exp16, mant16, toNat_extractLsb'_eq_div_mod]
  omega

theorem rank32_eq_fields (a : Single) : rank32 a = (exp32 a).toNat * 2 ^ 23 + (mant32 a).toNat := by
  simp only [rank32, exp32, mant32, toNat_extractLsb'_eq_div_mod]
  omega

@[simp] theorem rank16_composeMag16 (s : BitVec 1) (v : BitVec 15) : rank16 (composeMag16 s v) = v.toNat := by
  rw [rank16, magnitude_composeMag16]

/-- The exponent field of a rank. -/
theorem rank16_div (h : Half) : rank16 h / 2 ^ 10 = (exp16 h).toNat := by
  have mant := (mant16 h).isLt
  rw [rank16_eq_fields]
  omega

/-- Sign and rank make up a pattern. -/
theorem half_eq_of_sign_rank {h h' : Half} (sign : sign16 h = sign16 h') (rank : rank16 h = rank16 h') :
    h = h' := by
  rw [← composeMag16_fields h, ← composeMag16_fields h', sign, BitVec.eq_of_toNat_eq rank]

/-- The magnitude of the binary16 pattern of rank `v` in units of `2^-149`. The infinity's is `2^16`, where
the next binade would begin. -/
def halfGrid (v : Nat) : Nat := gridUnits 10 v * 2 ^ 125

/-- The magnitude of the binary32 pattern of rank `v` in units of `2^-149`, the infinity's being that of the
next binade too. -/
def singleGrid (v : Nat) : Nat := gridUnits 23 v

theorem units16_eq_gridUnits (h : Half) : units16 h = gridUnits 10 (rank16 h) := by
  rw [rank16_eq_fields, gridUnits_of_fields _ (mant16 h).isLt, units16]
  simp only [BitVec.toNat_eq]
  rfl

theorem units32_eq_singleGrid (a : Single) : units32 a = singleGrid (rank32 a) := by
  rw [singleGrid, rank32_eq_fields, gridUnits_of_fields _ (mant32 a).isLt, units32]
  simp only [BitVec.toNat_eq]
  rfl

/-- The magnitude of a finite binary16 pattern on the common grid. -/
theorem magnitude16_eq_halfGrid (h : Half) : magnitude16 h = (halfGrid (rank16 h) : ℚ) / 2 ^ 149 := by
  rw [magnitude16_eq_units, units16_eq_gridUnits, halfGrid]
  push_cast
  ring

theorem magnitude32_eq_singleGrid (a : Single) :
    magnitude32 a = (singleGrid (rank32 a) : ℚ) / 2 ^ 149 := by
  rw [magnitude32_eq_units, units32_eq_singleGrid]

theorem halfGrid_succ (v : Nat) : halfGrid (v + 1) = halfGrid v + 2 ^ (v / 2 ^ 10 - 1 + 125) := by
  unfold halfGrid
  rw [gridUnits_succ, Nat.add_mul, ← pow_add]

theorem halfGrid_strictMono : StrictMono halfGrid :=
  fun _ _ hlt => Nat.mul_lt_mul_of_pos_right (gridUnits_strictMono 10 hlt) (Nat.two_pow_pos 125)

theorem singleGrid_strictMono : StrictMono singleGrid := gridUnits_strictMono 23

/-! ### Values off NaN as signed numbers of units -/

/-- The value of a sign and a number of units of `2^-149` in a format whose infinity stands at `top`. -/
def gridValue (top : Nat) (negative : Bool) (n : Nat) : FloatValue :=
  if n < top then .finite negative ((n : ℚ) / 2 ^ 149) else .infinity negative

/-- A sign and a number of units as one integer. -/
def signedUnits (negative : Bool) (n : Nat) : ℤ := if negative then -n else n

theorem gridValue_of_lt {top n : Nat} (hn : n < top) (negative : Bool) :
    gridValue top negative n = .finite negative ((n : ℚ) / 2 ^ 149) :=
  if_pos hn

theorem gridValue_top (top : Nat) (negative : Bool) : gridValue top negative top = .infinity negative :=
  if_neg (Nat.lt_irrefl top)

theorem isFinite_gridValue_iff (top : Nat) (negative : Bool) (n : Nat) :
    (gridValue top negative n).isFinite = true ↔ n < top := by
  unfold gridValue
  split <;> simp [FloatValue.isFinite, *]

theorem real_gridValue {top n : Nat} (hn : n < top) (negative : Bool) :
    (gridValue top negative n).real = (signedUnits negative n : ℚ) / 2 ^ 149 := by
  rw [gridValue_of_lt hn]
  cases negative
  · simp [FloatValue.real, signedUnits]
  · simp [FloatValue.real, signedUnits, neg_div]

/-- The order of values is that of the integers, the infinities of one format included. -/
theorem gridValue_le_iff {top n m : Nat} (pos : 0 < top) (hn : n ≤ top) (hm : m ≤ top)
    (negative negative' : Bool) : (gridValue top negative n).le (gridValue top negative' m) ↔
      signedUnits negative n ≤ signedUnits negative' m := by
  rcases Nat.lt_or_eq_of_le hn with finite | rfl <;> rcases Nat.lt_or_eq_of_le hm with finite' | rfl
  · have reals : (gridValue top negative n).le (gridValue top negative' m) ↔
        (gridValue top negative n).real ≤ (gridValue top negative' m).real := by
      rw [gridValue_of_lt finite, gridValue_of_lt finite', FloatValue.le]
    rw [reals, real_gridValue finite, real_gridValue finite', div_le_div_iff_of_pos_right (by norm_num)]
    exact Int.cast_le
  · rw [gridValue_of_lt finite, gridValue_top]
    cases negative <;> cases negative' <;> simp [FloatValue.le, signedUnits] <;> omega
  · rw [gridValue_of_lt finite', gridValue_top]
    cases negative <;> cases negative' <;> simp [FloatValue.le, signedUnits] <;> omega
  · rw [gridValue_top, gridValue_top]
    cases negative <;> cases negative' <;> simp [FloatValue.le, signedUnits]; omega

/-! ### The value of a pattern that is no NaN -/

/-- The ranks of a binary16 pattern that is no NaN end at the infinity's. -/
theorem rank16_le {h : Half} (hh : class16 h ≠ .nan) : rank16 h ≤ 0x7C00 :=
  Nat.le_of_not_lt (mt (class16_eq_nan_iff_infinity_lt h).mpr hh)

theorem value16_of_exp_ne_max {h : Half} (he : exp16 h ≠ 31#5) :
    value16 h = .finite (sign16 h = 1#1) (magnitude16 h) := by
  unfold value16 class16
  rw [if_neg he]
  split_ifs <;> rfl

theorem value16_of_infinity {h : Half} (he : exp16 h = 31#5) (hm : mant16 h = 0#10) :
    value16 h = .infinity (sign16 h = 1#1) := by
  unfold value16 class16
  rw [if_pos he, if_pos hm]

/-- The rank of a binary16 infinity. -/
theorem rank16_of_infinity {h : Half} (he : exp16 h = 31#5) (hm : mant16 h = 0#10) : rank16 h = 0x7C00 := by
  rw [rank16_eq_fields, he, hm]
  rfl

theorem rank16_lt_iff (h : Half) : rank16 h < 0x7C00 ↔ exp16 h ≠ 31#5 := by
  have fields := rank16_eq_fields h
  have mant := (mant16 h).isLt
  bv_omega

/-- Off NaN an exponent of 31 is an infinity's (R35). -/
theorem mant16_eq_zero_of_not_nan {h : Half} (hh : class16 h ≠ .nan) (he : exp16 h = 31#5) :
    mant16 h = 0#10 :=
  by_contra fun hm => hh ((class16_eq_nan_iff h).mpr ⟨he, hm⟩)

/-- A binary16 value off NaN stands on the grid. -/
theorem value16_eq_gridValue {h : Half} (hh : class16 h ≠ .nan) :
    value16 h = gridValue (halfGrid 0x7C00) (sign16 h = 1#1) (halfGrid (rank16 h)) := by
  by_cases he : exp16 h = 31#5
  · have hm := mant16_eq_zero_of_not_nan hh he
    rw [value16_of_infinity he hm, rank16_of_infinity he hm, gridValue_top]
  · rw [value16_of_exp_ne_max he, magnitude16_eq_halfGrid,
      gridValue_of_lt (halfGrid_strictMono ((rank16_lt_iff h).mpr he))]

theorem value32_of_exp_ne_max {a : Single} (he : exp32 a ≠ 255#8) :
    value32 a = .finite (sign32 a = 1#1) (magnitude32 a) := by
  unfold value32 class32
  rw [if_neg he]
  split_ifs <;> rfl

theorem value32_of_infinity {a : Single} (he : exp32 a = 255#8) (hm : mant32 a = 0#23) :
    value32 a = .infinity (sign32 a = 1#1) := by
  unfold value32 class32
  rw [if_pos he, if_pos hm]

theorem rank32_of_infinity {a : Single} (he : exp32 a = 255#8) (hm : mant32 a = 0#23) :
    rank32 a = 0x7F800000 := by
  rw [rank32_eq_fields, he, hm]
  rfl

theorem rank32_lt_iff (a : Single) : rank32 a < 0x7F800000 ↔ exp32 a ≠ 255#8 := by
  have fields := rank32_eq_fields a
  have mant := (mant32 a).isLt
  bv_omega

/-- Off NaN an exponent of 255 is an infinity's (R37). -/
theorem mant32_eq_zero_of_not_nan {a : Single} (ha : class32 a ≠ .nan) (he : exp32 a = 255#8) :
    mant32 a = 0#23 :=
  by_contra fun hm => ha ((class32_eq_nan_iff a).mpr ⟨he, hm⟩)

/-- The ranks of a binary32 pattern that is no NaN end at the infinity's. -/
theorem rank32_le {a : Single} (ha : class32 a ≠ .nan) : rank32 a ≤ 0x7F800000 := by
  by_cases he : exp32 a = 255#8
  · exact (rank32_of_infinity he (mant32_eq_zero_of_not_nan ha he)).le
  · exact ((rank32_lt_iff a).mpr he).le

/-- A binary32 value off NaN stands on the grid. -/
theorem value32_eq_gridValue {a : Single} (ha : class32 a ≠ .nan) :
    value32 a = gridValue (singleGrid 0x7F800000) (sign32 a = 1#1) (singleGrid (rank32 a)) := by
  by_cases he : exp32 a = 255#8
  · have hm := mant32_eq_zero_of_not_nan ha he
    rw [value32_of_infinity he hm, rank32_of_infinity he hm, gridValue_top]
  · rw [value32_of_exp_ne_max he, magnitude32_eq_singleGrid,
      gridValue_of_lt (singleGrid_strictMono ((rank32_lt_iff a).mpr he))]

/-! ### `DEC` keeps the value -/

/-- The magnitude of a binary32 normal (R37). -/
theorem units32_of_normal {a : Single} {e : Nat} (he : (exp32 a).toNat = e + 1) :
    units32 a = (2 ^ 23 + (mant32 a).toNat) * 2 ^ e := by
  have normal : exp32 a ≠ 0#8 := fun zero => by simp [zero] at he
  rw [units32, if_neg normal, he, Nat.add_sub_cancel]

/-- `DEC` keeps the number of units: a zero is a zero, the leading one of a subnormal becomes the implicit
one, and a normal is rebiased. -/
theorem units32_dec (p : Params) {h : Half} (finite : exp16 h ≠ 31#5) :
    units32 (dec p h) = halfGrid (rank16 h) := by
  rw [halfGrid, ← units16_eq_gridUnits, units16]
  by_cases he : exp16 h = 0#5
  · rw [if_pos he]
    by_cases hm : mant16 h = 0#10
    · rw [dec_of_zero p he hm, hm, units32, exp32_compose32, mant32_compose32]
      rfl
    · obtain ⟨i, hi, lo, -, exp, mant⟩ := exists_fields_dec_of_subnormal p he hm
      obtain ⟨k, hk⟩ : ∃ k, i + k = 23 := ⟨23 - i, by omega⟩
      have exp' : (exp32 (dec p h)).toNat = 102 + i + 1 := by omega
      have places : 23 - i = k := by omega
      rw [units32_of_normal exp', mant, places]
      calc (2 ^ 23 + ((mant16 h).toNat - 2 ^ i) * 2 ^ k) * 2 ^ (102 + i)
        _ = (2 ^ i + ((mant16 h).toNat - 2 ^ i)) * 2 ^ (i + k) * 2 ^ 102 := by
          rw [← hk]
          ring
        _ = (mant16 h).toNat * 2 ^ 125 := by
          rw [Nat.add_sub_cancel' lo, hk]
          ring
  · obtain ⟨e, hexp⟩ := Nat.exists_eq_add_of_le' (one_le_toNat_of_ne_zero he)
    have exp : (exp32 (dec p h)).toNat = e + 112 + 1 := by
      rw [dec_of_normal p finite he, decNormal, exp32_compose32, toNat_rebias, hexp]
    have mant : (mant32 (dec p h)).toNat = (mant16 h).toNat * 2 ^ 13 := by
      rw [dec_of_normal p finite he, decNormal, mant32_compose32, toNat_append_eq_mul_add,
        BitVec.toNat_zero, Nat.add_zero]
    rw [if_neg he, hexp, units32_of_normal exp, mant, Nat.add_sub_cancel]
    ring

theorem sign32_dec_of_not_nan (p : Params) {h : Half} (hh : class16 h ≠ .nan) :
    sign32 (dec p h) = sign16 h := by
  rw [dec_params_irrelevant p Params.hardware hh, sign32_dec hardware_decNanLaw]

/-- Nothing finite is decoded to an exponent of 255. -/
theorem exp32_dec_ne_max (p : Params) {h : Half} (finite : exp16 h ≠ 31#5) : exp32 (dec p h) ≠ 255#8 := by
  rcases dec_cases p h with ⟨he, -, -⟩ | ⟨he, -, -⟩ | ⟨-, -, path⟩ | ⟨-, -, path⟩ | ⟨-, -, path⟩
  · exact absurd he finite
  · exact absurd he finite
  · rw [path, exp32_compose32]; decide
  · rw [path]; exact exp32_decSubnormal_ne_max _ _
  · rw [path]; exact exp32_decNormal_ne_max _ _ _

/-- Settles O22: an infinity gives the infinity of its sign, and off the infinities `DEC` keeps the sign and
the number of units. -/
theorem decodeIsExact : Obligations.DecodeIsExact := by
  intro p h hh
  have sign := sign32_dec_of_not_nan p hh
  by_cases he : exp16 h = 31#5
  · have hm := mant16_eq_zero_of_not_nan hh he
    have path := dec_of_infinity p he hm
    rw [value16_of_infinity he hm, ← sign]
    exact value32_of_infinity (by rw [path, exp32_compose32]) (by rw [path, mant32_compose32])
  · rw [value16_of_exp_ne_max he, value32_of_exp_ne_max (exp32_dec_ne_max p he), sign,
      magnitude32_eq_units, units32_dec p he, magnitude16_eq_halfGrid]

end Sys2Proof.Machine
end

section
/-! PROOFS. `ENC` as rounding to the nearest number of the binary16 grid, ties to even (42_fp32_to_fp16.md
R77), said once for all paths. -/

namespace Sys2Proof.Machine

/-! ### Rounding to the nearest rank -/

/-- `r` is the rank to which `x` units of `2^-149` are rounded: `x` is not below the middle between `r` and
its predecessor and, short of the infinity, not above the middle between `r` and its successor; on a middle
`r` is even. -/
structure RoundsTo (x r : Nat) : Prop where
  below : ∀ q, q + 1 = r → halfGrid q + halfGrid r ≤ 2 * x ∧
    (halfGrid q + halfGrid r = 2 * x → r % 2 = 0)
  above : r < 0x7C00 → 2 * x ≤ halfGrid r + halfGrid (r + 1) ∧
    (2 * x = halfGrid r + halfGrid (r + 1) → r % 2 = 0)

/-- Rounding keeps the order: two results in the wrong order would be neighbours on one middle, both even. -/
theorem RoundsTo.mono {x y r s : Nat} (hx : RoundsTo x r) (hy : RoundsTo y s) (hr : r ≤ 0x7C00)
    (hxy : x ≤ y) : r ≤ s := by
  by_contra order
  obtain ⟨q, rfl⟩ := Nat.exists_eq_add_of_le' (by omega : 1 ≤ r)
  obtain ⟨below, even⟩ := hx.below q rfl
  obtain ⟨above, even'⟩ := hy.above (by omega)
  rcases Nat.lt_or_eq_of_le (by omega : s ≤ q) with apart | rfl
  · have lt := halfGrid_strictMono apart
    have le := halfGrid_strictMono.monotone (by omega : s + 1 ≤ q + 1)
    omega
  · omega

/-- Rounding has one result. -/
theorem RoundsTo.unique {x r s : Nat} (hr : RoundsTo x r) (hs : RoundsTo x s) (r_le : r ≤ 0x7C00)
    (s_le : s ≤ 0x7C00) : r = s :=
  Nat.le_antisymm (hr.mono hs r_le le_rfl) (hs.mono hr s_le le_rfl)

/-- What stands on the grid is rounded to itself. -/
theorem roundsTo_halfGrid (v : Nat) : RoundsTo (halfGrid v) v := by
  refine ⟨fun q hq => ?_, fun _ => ?_⟩
  · have lt := halfGrid_strictMono (Nat.lt_of_succ_le hq.le)
    omega
  · have lt := halfGrid_strictMono (Nat.lt_add_one v)
    omega

/-- Between two neighbours of the grid the nearer one is the result, and the even one on the middle. -/
theorem roundsTo_of_between {x q r : Nat} (lo : halfGrid q ≤ x) (hi : x < halfGrid (q + 1))
    (nearer : r = q + 1 ∧ halfGrid q + halfGrid (q + 1) ≤ 2 * x ∧
        (halfGrid q + halfGrid (q + 1) = 2 * x → (q + 1) % 2 = 0) ∨
      r = q ∧ 2 * x ≤ halfGrid q + halfGrid (q + 1) ∧
        (2 * x = halfGrid q + halfGrid (q + 1) → q % 2 = 0)) : RoundsTo x r := by
  rcases nearer with ⟨rfl, middle, even⟩ | ⟨rfl, middle, even⟩
  · refine ⟨fun i hi => ?_, fun _ => ?_⟩
    · obtain rfl := Nat.succ_injective hi
      exact ⟨middle, even⟩
    · have lt := halfGrid_strictMono (Nat.lt_add_one (q + 1))
      omega
  · refine ⟨fun i hi => ?_, fun _ => ⟨middle, even⟩⟩
    have lt := halfGrid_strictMono (Nat.lt_of_succ_le hi.le)
    omega

/-- From 65520, the middle between 65504 and `2^16`, the result is the infinity. -/
theorem roundsTo_infinity {x : Nat} (hx : 65520 * 2 ^ 149 ≤ x) : RoundsTo x 0x7C00 := by
  refine ⟨fun q hq => ⟨?_, fun _ => rfl⟩, fun h => absurd h (Nat.lt_irrefl _)⟩
  obtain rfl : q = 0x7BFF := Nat.succ_injective hq
  calc halfGrid 0x7BFF + halfGrid 0x7C00
    _ = 2 * (65520 * 2 ^ 149) := by decide
    _ ≤ 2 * x := Nat.mul_le_mul_left 2 hx

/-! ### The rounding of the model -/

/-- The rule for rounding up in numbers: what is dropped is more than half of `2^k`, or half of it next to an
odd value (R66). -/
theorem roundsUp_iff {w : Nat} (v : BitVec w) (k : Nat) (lsb : Bool) :
    RoundsUp v (k + 1) lsb ↔ 2 ^ k < v.toNat % 2 ^ (k + 1) ∨
      v.toNat % 2 ^ (k + 1) = 2 ^ k ∧ lsb = true := by
  have digits : v.toNat % 2 ^ (k + 1) = v.toNat % 2 ^ k + 2 ^ k * (v.toNat / 2 ^ k % 2) := by
    rw [pow_succ, Nat.mod_mul]
  have rest := Nat.mod_lt v.toNat (Nat.two_pow_pos k)
  unfold RoundsUp
  rw [← stickyBit_iff, stickyBit, bne_iff_ne, Nat.add_sub_cancel, getLsbD_eq_true_iff_div_mod, digits]
  rcases Nat.mod_two_eq_zero_or_one (v.toNat / 2 ^ k) with bit | bit
  · rw [bit]
    refine iff_of_false (fun ⟨one, _⟩ => Nat.zero_ne_one one) ?_
    rintro (more | ⟨half, -⟩) <;> omega
  · rw [bit, Nat.mul_one]
    by_cases zero : v.toNat % 2 ^ k = 0
    · simp [zero]
    · simp only [true_and, ne_eq, zero, not_false_iff, true_or, true_iff]
      omega

theorem getLsbD_zero_eq_true_iff {w : Nat} (v : BitVec w) : v.getLsbD 0 = true ↔ v.toNat % 2 = 1 := by
  rw [getLsbD_eq_true_iff_div_mod, pow_zero, Nat.div_one]

/-- The increment of a finite rank does not wrap (R71). -/
theorem toNat_add_one_of_lt {v : BitVec 15} (hv : v.toNat < 0x7C00) : (v + 1#15).toNat = v.toNat + 1 := by
  bv_omega

/-- The model's rounding of a kept rank is rounding to nearest, where `x` is `c` units in the last place,
kept, and below them the `k + 1` dropped bits, all times `2^t`. -/
theorem roundsTo_roundKept {w k t c x : Nat} {kept : BitVec 15} {v : BitVec w}
    (hx : x = (c * 2 ^ (k + 1) + v.toNat % 2 ^ (k + 1)) * 2 ^ t) (finite : kept.toNat < 0x7C00)
    (grid : gridUnits 10 kept.toNat = c * 2 ^ (kept.toNat / 2 ^ 10 - 1))
    (scale : kept.toNat / 2 ^ 10 - 1 + 125 = k + 1 + t) :
    RoundsTo x (roundKept kept (roundBit v (k + 1)) (stickyBit v (k + 1))).toNat := by
  have floor : halfGrid kept.toNat = c * 2 ^ (k + 1) * 2 ^ t := by
    rw [halfGrid, grid, mul_assoc, ← pow_add, scale, pow_add, mul_assoc]
  have next : halfGrid (kept.toNat + 1) = halfGrid kept.toNat + 2 ^ (k + 1) * 2 ^ t := by
    rw [halfGrid_succ, scale, pow_add]
  have split : x = halfGrid kept.toNat + v.toNat % 2 ^ (k + 1) * 2 ^ t := by rw [hx, floor, Nat.add_mul]
  have unit : 2 ^ (k + 1) * 2 ^ t = 2 * (2 ^ k * 2 ^ t) := by rw [pow_succ']; ring
  have pos := Nat.two_pow_pos t
  have dropped := Nat.mul_lt_mul_of_pos_right (Nat.mod_lt v.toNat (Nat.two_pow_pos (k + 1))) pos
  refine roundsTo_of_between (q := kept.toNat) (by omega) (by omega) ?_
  rcases roundKept_cases_of_shift kept v (k + 1) with ⟨up, result⟩ | ⟨keep, result⟩ <;> rw [result]
  · refine .inl ⟨toNat_add_one_of_lt finite, ?_⟩
    rcases (roundsUp_iff v k _).mp up with more | ⟨half, odd⟩
    · have more' := Nat.mul_lt_mul_of_pos_right more pos
      omega
    · rw [getLsbD_zero_eq_true_iff] at odd
      rw [half] at split
      omega
  · refine .inr ⟨rfl, ?_⟩
    rw [roundsUp_iff, getLsbD_zero_eq_true_iff] at keep
    rcases Nat.lt_trichotomy (v.toNat % 2 ^ (k + 1)) (2 ^ k) with less | half | more
    · have less' := Nat.mul_lt_mul_of_pos_right less pos
      omega
    · rw [half] at split
      omega
    · exact absurd (.inl more) keep

/-! ### `ENC` rounds to the nearest rank -/

/-- The normal path drops 13 bits below a rank of the exponent `e32 - 112`. -/
theorem roundsTo_enc_of_normal (p : Params) {a : Single} (lo : 113#8 ≤ exp32 a) (hi : exp32 a ≤ 142#8) :
    RoundsTo (units32 a) (rank16 (enc p a)) := by
  have lo' : 113 ≤ (exp32 a).toNat := BitVec.le_def.mp lo
  have hi' : (exp32 a).toNat ≤ 142 := BitVec.le_def.mp hi
  obtain ⟨e, he⟩ : ∃ e, (exp32 a).toNat = e + 113 := ⟨_, (Nat.sub_add_cancel lo').symm⟩
  have kept := toNat_normalKept lo hi
  have field := toNat_extractLsb'_eq_div_mod (mant32 a) 13 10
  have mantBound := (mant32 a).isLt
  have rank : (normalKept a).toNat = (e + 1) * 2 ^ 10 + (mant32 a).toNat / 2 ^ 13 := by
    rw [kept, field]
    omega
  have exponent : (normalKept a).toNat / 2 ^ 10 = e + 1 := by omega
  rw [enc_of_normal_eq_roundKept p lo hi, rank16_composeMag16]
  refine roundsTo_roundKept (k := 12) (t := e + 112) (c := 2 ^ 10 + (mant32 a).toNat / 2 ^ 13) ?_ (by omega)
    ?_ (by omega)
  · rw [units32_of_normal (e := e + 112) (by omega)]
    congr 1
    omega
  · rw [exponent, rank, gridUnits_of_fields _ (by omega), if_neg (Nat.succ_ne_zero e)]

/-- The subnormal path drops `126 - e32` bits, and what it keeps is a rank of the exponent 0. -/
theorem roundsTo_enc_of_subnormal (p : Params) {a : Single} (lo : 102#8 ≤ exp32 a) (hi : exp32 a ≤ 112#8) :
    RoundsTo (units32 a) (rank16 (enc p a)) := by
  have lo' : 102 ≤ (exp32 a).toNat := BitVec.le_def.mp lo
  have hi' : (exp32 a).toNat ≤ 112 := BitVec.le_def.mp hi
  obtain ⟨k, hk⟩ : ∃ k, 126 - (exp32 a).toNat = k + 1 := ⟨_, (Nat.sub_add_cancel (by omega)).symm⟩
  have kept := toNat_subnormalKept hi
  have ten := toNat_subnormalKept_le hi
  have exponent : (subnormalKept a).toNat / 2 ^ 10 = 0 := by omega
  rw [enc_of_subnormal_eq_roundKept p lo hi, rank16_composeMag16]
  rw [hk] at kept ⊢
  refine roundsTo_roundKept (t := (exp32 a).toNat - 1) (c := (subnormalKept a).toNat) ?_ (by omega) ?_
    (by omega)
  · rw [units32_of_normal (e := (exp32 a).toNat - 1) (by omega), ← toNat_significand32, kept,
      Nat.div_add_mod']
  · rw [exponent, Nat.zero_sub, pow_zero, mul_one, gridUnits, exponent, if_pos rfl]
    omega

/-- Up to half the smallest subnormal the result is zero. -/
theorem roundsTo_zero {x : Nat} (hx : x ≤ 2 ^ 124) : RoundsTo x 0 := by
  refine ⟨fun q hq => absurd hq (Nat.succ_ne_zero q), fun _ => ⟨?_, fun _ => rfl⟩⟩
  calc 2 * x
    _ ≤ 2 * 2 ^ 124 := Nat.mul_le_mul_left 2 hx
    _ = halfGrid 0 + halfGrid 1 := by decide

/-- Operands of the last path are below half the smallest subnormal. -/
theorem units32_le_of_underflow {a : Single} (hi : exp32 a ≤ 101#8) : units32 a ≤ 2 ^ 124 := by
  have fields := rank32_eq_fields a
  have mant := (mant32 a).isLt
  have first : singleGrid (102 * 2 ^ 23) = 2 ^ 124 := by decide
  rw [units32_eq_singleGrid, ← first]
  exact singleGrid_strictMono.monotone (by bv_omega)

/-- From `e32 = 143` on, the infinity included, operands are `2^16` or more. -/
theorem le_units32_of_overflow {a : Single} (lo : 143#8 ≤ exp32 a) : 65520 * 2 ^ 149 ≤ units32 a := by
  have fields := rank32_eq_fields a
  rw [units32_eq_singleGrid]
  calc 65520 * 2 ^ 149
    _ ≤ singleGrid (143 * 2 ^ 23) := by decide
    _ ≤ singleGrid (rank32 a) := singleGrid_strictMono.monotone (by bv_omega)

/-- On every path but that of a NaN `ENC` rounds its operand to the nearest rank, ties to even. -/
theorem roundsTo_enc (p : Params) {a : Single} (ha : class32 a ≠ .nan) :
    RoundsTo (units32 a) (rank16 (enc p a)) := by
  have infinity (s : BitVec 1) : rank16 (compose16 s 31#5 0#10) = 0x7C00 := by
    rw [rank16, magnitude_compose16]
    rfl
  rcases enc_cases p a with ⟨he, hm, -⟩ | ⟨he, -, path⟩ | ⟨-, lo, path⟩ | ⟨hi, lo, -⟩ | ⟨hi, lo, -⟩ |
    ⟨hi, path⟩
  · exact absurd ((class32_eq_nan_iff a).mpr ⟨he, hm⟩) ha
  · rw [path, infinity]
    exact roundsTo_infinity (le_units32_of_overflow (by rw [he]; decide))
  · rw [path, infinity]
    exact roundsTo_infinity (le_units32_of_overflow lo)
  · exact roundsTo_enc_of_normal p lo (by bv_omega)
  · exact roundsTo_enc_of_subnormal p lo (by bv_omega)
  · rw [path, rank16_composeMag16]
    exact roundsTo_zero (units32_le_of_underflow (by bv_omega))

/-- Its rank is at most the infinity's. -/
theorem rank16_enc_le (p : Params) {a : Single} (ha : class32 a ≠ .nan) : rank16 (enc p a) ≤ 0x7C00 :=
  enc_le_infinity p ha

/-- So the rank `ENC` gives is the one the operand is rounded to. -/
theorem rank16_enc_eq (p : Params) {a : Single} (ha : class32 a ≠ .nan) {r : Nat} (hr : r ≤ 0x7C00)
    (rounds : RoundsTo (units32 a) r) : rank16 (enc p a) = r :=
  (roundsTo_enc p ha).unique rounds (rank16_enc_le p ha) hr

/-- The rank `ENC` gives grows with the magnitude of the operand. -/
theorem rank16_enc_mono (p : Params) {a b : Single} (ha : class32 a ≠ .nan) (hb : class32 b ≠ .nan)
    (hab : units32 a ≤ units32 b) : rank16 (enc p a) ≤ rank16 (enc p b) :=
  (roundsTo_enc p ha).mono (roundsTo_enc p hb) (rank16_enc_le p ha) hab

end Sys2Proof.Machine
end

section
/-! PROOFS. What rounding to the nearest rank gives (42_fp32_to_fp16.md R77, R78; 41_fp16_to_fp32.md R60,
R61): `ENC` is exact on halves and undoes `DEC`, is monotone, and has one result between two thresholds. -/

namespace Sys2Proof.Machine

/-! ### Equal values of the two formats -/

theorem value32_of_nan {a : Single} (ha : class32 a = .nan) : value32 a = .nan := by
  rw [value32, ha]

theorem value16_of_nan {h : Half} (hh : class16 h = .nan) : value16 h = .nan := by
  rw [value16, hh]

theorem gridValue_ne_nan (top : Nat) (negative : Bool) (n : Nat) : gridValue top negative n ≠ .nan := by
  unfold gridValue
  split <;> exact FloatValue.noConfusion

/-- Equal values have one sign, and are one number or both infinities. -/
theorem gridValue_eq_cases {top top' n m : Nat} {negative negative' : Bool}
    (eq : gridValue top negative n = gridValue top' negative' m) :
    negative = negative' ∧ (n = m ∨ top ≤ n ∧ top' ≤ m) := by
  unfold gridValue at eq
  split_ifs at eq with finite finite' finite'
  · obtain ⟨sign, number⟩ := FloatValue.finite.inj eq
    rw [div_left_inj' (by norm_num), Nat.cast_inj] at number
    exact ⟨sign, .inl number⟩
  · exact ⟨FloatValue.infinity.inj eq, .inr ⟨Nat.le_of_not_lt finite, Nat.le_of_not_lt finite'⟩⟩

/-- A sign is known by its being that of a negative. -/
theorem sign_eq_of_negative_eq {s s' : BitVec 1} (eq : decide (s = 1#1) = decide (s' = 1#1)) : s = s' := by
  revert s s'
  decide

/-- Settles O37: the operand stands at the rank of `h` on the grid, or both are infinities, so that rank is
the one it is rounded to. -/
theorem encodeIsExactOnHalves : Obligations.EncodeIsExactOnHalves := by
  intro p a h hh value
  rw [value16_eq_gridValue hh] at value
  have ha : class32 a ≠ .nan := fun nan => gridValue_ne_nan _ _ _ (value.symm.trans (value32_of_nan nan))
  rw [value32_eq_gridValue ha] at value
  obtain ⟨negative, magnitude⟩ := gridValue_eq_cases value
  have sign : sign16 (enc p a) = sign16 h := (sign16_enc p a).trans (sign_eq_of_negative_eq negative)
  refine half_eq_of_sign_rank sign (rank16_enc_eq p ha (rank16_le hh) ?_)
  rw [units32_eq_singleGrid]
  rcases magnitude with number | ⟨large, large'⟩
  · rw [number]
    exact roundsTo_halfGrid _
  · have top : rank16 h = 0x7C00 :=
      Nat.le_antisymm (rank16_le hh) (halfGrid_strictMono.le_iff_le.mp large')
    rw [top]
    exact roundsTo_infinity (le_trans (by decide) large)

/-! ### Decoding and encoding again -/

theorem enc_dec (p : Params) {h : Half} (hh : class16 h ≠ .nan) : enc p (dec p h) = h :=
  encodeIsExactOnHalves p _ h hh (decodeIsExact p h hh)

/-- The quiet NaN of each sign is encoded to the quiet NaN of that sign (R61). -/
theorem enc_hardware_quietNan (s : BitVec 1) :
    enc Params.hardware (compose32 s 0xFF#8 0x400000#23) = if s = 0#1 then 0x7E00#16 else 0xFE00#16 := by
  revert s
  decide

/-- Settles O25: `ENC` is exact on what `DEC` gave, which has the value of a half, and a NaN is decoded to the
quiet NaN of its sign. -/
theorem encodeUndoesDecode : Obligations.EncodeUndoesDecode := by
  refine ⟨fun p h hh => enc_dec p hh, fun h hh => ?nan, fun x h s hh => ?sequence⟩
  case nan =>
    obtain ⟨he, hm⟩ := (class16_eq_nan_iff h).mp hh
    rw [dec_hardware_of_nan he hm, enc_hardware_quietNan]
  case sequence =>
    refine ⟨_, _, exec_f16tof32 x h s, exec_f32tof16 _ _, ?_⟩
    rw [State.delivered_dout, State.delivered_dout, enc_dec _ hh]

/-- Settles O24: `ENC` gives each of the two operands back from the one result. -/
theorem decodeIsInjective : Obligations.DecodeIsInjective := by
  intro p h h' hh hh' eq
  calc h = enc p (dec p h) := (enc_dec p hh).symm
    _ = enc p (dec p h') := by rw [eq]
    _ = h' := enc_dec p hh'

/-! ### Monotonicity -/

theorem class16_enc_ne_nan (p : Params) {a : Single} (ha : class32 a ≠ .nan) : class16 (enc p a) ≠ .nan :=
  mt (class16_eq_nan_iff_infinity_lt _).mp (BitVec.not_lt.mpr (enc_le_infinity p ha))

/-- The value of a result of `ENC`: the sign of the operand and the number of the rank. -/
theorem value16_enc (p : Params) {a : Single} (ha : class32 a ≠ .nan) : value16 (enc p a) =
    gridValue (halfGrid 0x7C00) (sign32 a = 1#1) (halfGrid (rank16 (enc p a))) := by
  rw [value16_eq_gridValue (class16_enc_ne_nan p ha), sign16_enc]

/-- A function of magnitudes that grows and keeps zero keeps the order of signed numbers. -/
theorem signedUnits_le_signedUnits {n m n' m' : Nat} {negative negative' : Bool}
    (le : signedUnits negative n ≤ signedUnits negative' m) (up : n ≤ m → n' ≤ m') (down : m ≤ n → m' ≤ n')
    (zero : n = 0 → n' = 0) (zero' : m = 0 → m' = 0) :
    signedUnits negative n' ≤ signedUnits negative' m' := by
  unfold signedUnits at *
  cases negative <;> cases negative' <;> simp only [Bool.false_eq_true, if_true, if_false] at * <;> omega

/-- Settles O40: the order of the values is that of the signed numbers, whose sign `ENC` keeps and whose
magnitudes it rounds in their order. -/
theorem encodeIsMonotone : Obligations.EncodeIsMonotone := by
  intro p a b ha hb le
  have top (c : Single) (hc : class32 c ≠ .nan) : singleGrid (rank32 c) ≤ singleGrid 0x7F800000 :=
    singleGrid_strictMono.monotone (rank32_le hc)
  have top' (c : Single) (hc : class32 c ≠ .nan) : halfGrid (rank16 (enc p c)) ≤ halfGrid 0x7C00 :=
    halfGrid_strictMono.monotone (rank16_enc_le p hc)
  have zero (c : Single) (hc : class32 c ≠ .nan) (h0 : units32 c = 0) : halfGrid (rank16 (enc p c)) = 0 := by
    rw [rank16_enc_eq p hc (Nat.zero_le _) (roundsTo_zero (h0.trans_le (Nat.zero_le _)))]
    rfl
  rw [value32_eq_gridValue ha, value32_eq_gridValue hb,
    gridValue_le_iff (by decide) (top a ha) (top b hb), ← units32_eq_singleGrid,
    ← units32_eq_singleGrid] at le
  rw [value16_enc p ha, value16_enc p hb, gridValue_le_iff (by decide) (top' a ha) (top' b hb)]
  exact signedUnits_le_signedUnits le
    (fun le => halfGrid_strictMono.monotone (rank16_enc_mono p ha hb le))
    (fun le => halfGrid_strictMono.monotone (rank16_enc_mono p hb ha le)) (zero a ha) (zero b hb)

/-! ### The thresholds (R78) -/

/-- A positive pattern up to the infinity is its own rank. -/
theorem fields_of_le_infinity {a : Single} (ha : a ≤ 0x7F800000#32) :
    sign32 a = 0#1 ∧ rank32 a = a.toNat ∧ class32 a ≠ .nan := by
  have number := toNat_eq_fields32 a
  have rank := rank32_eq_fields a
  have exp := (exp32 a).isLt
  have mant := (mant32 a).isLt
  refine ⟨by bv_omega, by bv_omega, fun nan => ?_⟩
  obtain ⟨he, hm⟩ := (class32_eq_nan_iff a).mp nan
  bv_omega

/-- Two results of positive operands stand in the order of the operands. -/
theorem rank16_enc_le_of_le (p : Params) {a b : Single} (hab : a ≤ b) (hb : b ≤ 0x7F800000#32) :
    rank16 (enc p a) ≤ rank16 (enc p b) := by
  obtain ⟨-, rank, notNan⟩ := fields_of_le_infinity (BitVec.le_trans hab hb)
  obtain ⟨-, rank', notNan'⟩ := fields_of_le_infinity hb
  refine rank16_enc_mono p notNan notNan' ?_
  rw [units32_eq_singleGrid, units32_eq_singleGrid, rank, rank']
  exact singleGrid_strictMono.monotone (BitVec.le_def.mp hab)

/-- Where both ends of a range of positive operands have one result, every operand between them has it. -/
theorem enc_eq_of_between (p : Params) {a lo hi : Single} {r : Half} (ge : lo ≤ a) (le : a ≤ hi)
    (last : hi ≤ 0x7F800000#32)
    (ends : enc Params.hardware lo = r ∧ enc Params.hardware hi = r) : enc p a = r := by
  obtain ⟨sign, -, notNan⟩ := fields_of_le_infinity (BitVec.le_trans le last)
  obtain ⟨sign', -, -⟩ := fields_of_le_infinity last
  obtain ⟨first, final⟩ := ends
  rw [enc_params_irrelevant p Params.hardware notNan]
  apply half_eq_of_sign_rank
  · rw [← final, sign16_enc, sign16_enc, sign, sign']
  · apply Nat.le_antisymm
    · exact (rank16_enc_le_of_le _ le last).trans_eq (congrArg rank16 final)
    · exact (congrArg rank16 first).ge.trans (rank16_enc_le_of_le _ ge (BitVec.le_trans le last))

/-- A positive NaN gives the positive NaN of the significand `ENC_NAN_MANT`. -/
theorem enc_of_positive_nan (p : Params) {a : Single} (lo : 0x7F800001#32 ≤ a) (hi : a ≤ 0x7FFFFFFF#32) :
    enc p a = 0x7C00#16 ||| (p.encNanMant (mant32 a)).setWidth 16 := by
  have number := toNat_eq_fields32 a
  have exp := (exp32 a).isLt
  have mant := (mant32 a).isLt
  have sign : sign32 a = 0#1 := by bv_omega
  rw [enc_of_nan p (by bv_omega) (by bv_omega), sign]
  generalize p.encNanMant (mant32 a) = m
  have zext : (m.setWidth 16 : BitVec 16) = 0#6 ++ m := BitVec.setWidth_eq_append (by decide)
  have infinity : (0x7C00#16 : BitVec 16) = (0#1 ++ 31#5) ++ 0#10 := by decide
  calc compose16 0#1 31#5 m
    _ = ((0#1 ++ 31#5) ||| 0#6) ++ (0#10 ||| m) := by rw [BitVec.zero_or, BitVec.or_zero, compose16]
    _ = 0x7C00#16 ||| m.setWidth 16 := by rw [zext, infinity, BitVec.or_append]

/-- Setting the sign of a positive pattern flips it. -/
theorem sign_or_eq_xor {a : Single} (ha : a ≤ 0x7FFFFFFF#32) :
    0x80000000#32 ||| a = a ^^^ 0x80000000#32 := by
  have number := toNat_eq_fields32 a
  have sign : sign32 a = 0#1 := by bv_omega
  have split : sign32 a ++ a.extractLsb' 0 31 = a :=
    (BitVec.extractLsb'_append_extractLsb'_eq_extractLsb' rfl).trans BitVec.extractLsb'_eq_self
  have bit : (0x80000000#32 : BitVec 32) = 1#1 ++ 0#31 := by decide
  rw [← split, sign, bit, BitVec.or_append, BitVec.xor_append, BitVec.zero_or, BitVec.xor_zero,
    BitVec.or_zero, BitVec.zero_xor]

/-- Settles O43: five ranges and the infinity's by their ends, a NaN by its significand, and a negative by
the symmetry of R77(c). -/
theorem encodeThresholds : Obligations.EncodeThresholds := by
  refine fun p a => ⟨fun hi => ?zero, fun lo hi => ?one, fun lo hi => ?two, fun lo hi => ?smallestNormal,
    fun lo hi => ?largest, fun lo hi => ?infinity, enc_of_positive_nan p, fun hi => ?negative⟩
  case zero => exact enc_eq_of_between p (lo := 0#32) (by bv_omega) hi (by decide) (by decide)
  case one => exact enc_eq_of_between p lo hi (by decide) (by decide)
  case two => exact enc_eq_of_between p lo hi (by decide) (by decide)
  case smallestNormal => exact enc_eq_of_between p lo hi (by decide) (by decide)
  case largest => exact enc_eq_of_between p lo hi (by decide) (by decide)
  case infinity => exact enc_eq_of_between p lo hi (by decide) (by decide)
  case negative =>
    rw [sign_or_eq_xor hi, encodeIsSignSymmetric p a]

end Sys2Proof.Machine
end

section
/-! PROOFS. `ENC` gives the nearest value of binary16 (42_fp32_to_fp16.md R77(b)), and `DEC` of it is within
half a unit in the last place of the operand (R77(e)). -/

namespace Sys2Proof.Machine

/-! ### The nearest value -/

/-- The distance of a result to the operand is at most that of any other rank, and a tie with another is
won by an even one. -/
theorem RoundsTo.nearest {x r : Nat} (hx : RoundsTo x r) (hr : r < 0x7C00) (v : Nat) :
    |(halfGrid r : ℤ) - x| ≤ |(halfGrid v : ℤ) - x| ∧
      (|(halfGrid r : ℤ) - x| = |(halfGrid v : ℤ) - x| → v ≠ r → r % 2 = 0) := by
  obtain ⟨above, evenAbove⟩ := hx.above hr
  have next := halfGrid_strictMono (Nat.lt_add_one r)
  rcases Nat.lt_trichotomy v r with less | rfl | more
  · obtain ⟨q, rfl⟩ := Nat.exists_eq_add_of_le' (Nat.one_le_of_lt less)
    obtain ⟨below, evenBelow⟩ := hx.below q rfl
    have step := halfGrid_strictMono (Nat.lt_add_one q)
    have le := halfGrid_strictMono.monotone (Nat.le_of_lt_succ less)
    simp only [Int.abs_eq_natAbs]
    omega
  · exact ⟨le_rfl, fun _ ne => absurd rfl ne⟩
  · have more' : r + 1 ≤ v := more
    have le := halfGrid_strictMono.monotone more'
    simp only [Int.abs_eq_natAbs]
    omega

/-- Among numbers of one sign the distance is that of the magnitudes. -/
theorem abs_signedUnits_sub (negative : Bool) (n m : Nat) :
    |signedUnits negative n - signedUnits negative m| = |(n : ℤ) - m| := by
  cases negative
  · rfl
  · simp only [signedUnits, if_true, Int.abs_eq_natAbs]
    omega

/-- Between numbers of two signs lie both magnitudes. -/
theorem abs_signedUnits_sub_of_ne {negative negative' : Bool} (ne : negative ≠ negative') (n m : Nat) :
    |signedUnits negative n - signedUnits negative' m| = (n : ℤ) + m := by
  obtain rfl : negative = !negative' := Bool.eq_not_of_ne ne
  cases negative'
  · simp only [signedUnits, Bool.not_false, if_true, Bool.false_eq_true, if_false, Int.abs_eq_natAbs]
    omega
  · simp only [signedUnits, Bool.not_true, if_true, Bool.false_eq_true, if_false, Int.abs_eq_natAbs]
    omega

/-- The same of signed numbers: one of the other sign is no nearer than zero. -/
theorem RoundsTo.nearest_signed {x r : Nat} (hx : RoundsTo x r) (hr : r < 0x7C00) (v : Nat)
    (negative negative' : Bool) :
    |signedUnits negative (halfGrid r) - signedUnits negative x| ≤
        |signedUnits negative' (halfGrid v) - signedUnits negative x| ∧
      (|signedUnits negative (halfGrid r) - signedUnits negative x| =
          |signedUnits negative' (halfGrid v) - signedUnits negative x| →
        signedUnits negative' (halfGrid v) ≠ signedUnits negative (halfGrid r) → r % 2 = 0) := by
  rw [abs_signedUnits_sub]
  by_cases same : negative' = negative
  · subst same
    obtain ⟨le, even⟩ := hx.nearest hr v
    rw [abs_signedUnits_sub]
    exact ⟨le, fun tie ne => even tie fun eq => ne (by rw [eq])⟩
  · obtain ⟨le, even⟩ := hx.nearest hr 0
    have zero : |(halfGrid 0 : ℤ) - x| = x := by
      rw [(by decide : halfGrid 0 = 0), Int.abs_eq_natAbs]
      omega
    rw [abs_signedUnits_sub_of_ne same]
    rw [zero] at le even
    refine ⟨by omega, fun tie _ => ?_⟩
    by_cases r_zero : r = 0
    · rw [r_zero]
    · exact even (by omega) (Ne.symm r_zero)

/-! ### Values below 65520 -/

theorem class32_ne_nan_of_isFinite {a : Single} (ha : (value32 a).isFinite = true) : class32 a ≠ .nan :=
  fun nan => Bool.false_ne_true ((congrArg FloatValue.isFinite (value32_of_nan nan)).symm.trans ha)

/-- A finite binary32 value is its signed number of units. -/
theorem real_value32 {a : Single} (ha : (value32 a).isFinite = true) :
    (value32 a).real = (signedUnits (sign32 a = 1#1) (units32 a) : ℚ) / 2 ^ 149 := by
  have notNan := class32_ne_nan_of_isFinite ha
  rw [value32_eq_gridValue notNan] at ha ⊢
  rw [real_gridValue ((isFinite_gridValue_iff _ _ _).mp ha), units32_eq_singleGrid]

theorem isFinite_value16_iff (h : Half) : (value16 h).isFinite = true ↔ rank16 h < 0x7C00 := by
  by_cases hh : class16 h = .nan
  · have above := (class16_eq_nan_iff_infinity_lt h).mp hh
    rw [value16_of_nan hh]
    exact iff_of_false Bool.false_ne_true (Nat.lt_asymm above)
  · rw [value16_eq_gridValue hh, isFinite_gridValue_iff, halfGrid_strictMono.lt_iff_lt]

/-- A finite binary16 value is its signed number of units. -/
theorem real_value16 {h : Half} (hh : rank16 h < 0x7C00) :
    (value16 h).real = (signedUnits (sign16 h = 1#1) (halfGrid (rank16 h)) : ℚ) / 2 ^ 149 := by
  rw [value16_of_exp_ne_max ((rank16_lt_iff h).mp hh), magnitude16_eq_halfGrid,
    ← gridValue_of_lt (halfGrid_strictMono hh), real_gridValue (halfGrid_strictMono hh)]

theorem abs_signedUnits (negative : Bool) (n : Nat) : |signedUnits negative n| = n := by
  cases negative <;> simp [signedUnits]

/-- The bound of R77(b) in units. -/
theorem abs_real_value32_lt_iff {a : Single} (ha : (value32 a).isFinite = true) :
    |(value32 a).real| < 65520 ↔ units32 a < 65520 * 2 ^ 149 := by
  rw [real_value32 ha, abs_div, ← Int.cast_abs, abs_signedUnits, abs_of_pos (by positivity),
    div_lt_iff₀ (by positivity)]
  exact_mod_cast Iff.rfl

/-- Distances of values in units. -/
theorem abs_grid_sub (n m : ℤ) : |(n : ℚ) / 2 ^ 149 - (m : ℚ) / 2 ^ 149| = ((|n - m| : ℤ) : ℚ) / 2 ^ 149 := by
  rw [← sub_div, abs_div, abs_of_pos (by positivity : (0 : ℚ) < 2 ^ 149)]
  push_cast
  rfl

/-- Below 65520 the result is finite. -/
theorem RoundsTo.lt_infinity {x r : Nat} (hx : RoundsTo x r) (hr : r ≤ 0x7C00)
    (below : x < 65520 * 2 ^ 149) : r < 0x7C00 := by
  refine Nat.lt_of_le_of_ne hr fun top => ?_
  obtain ⟨middle, -⟩ := hx.below 0x7BFF top.symm
  have sum : halfGrid 0x7BFF + halfGrid 0x7C00 = 2 * (65520 * 2 ^ 149) := by decide
  rw [top, sum] at middle
  omega

/-- The last significand bit is that of the rank. -/
theorem getLsbD_zero_mant16 {h : Half} (even : rank16 h % 2 = 0) : (mant16 h).getLsbD 0 = false := by
  have fields := rank16_eq_fields h
  rw [← Bool.not_eq_true, getLsbD_zero_eq_true_iff]
  omega

/-- Settles O38: in units both sides are distances of signed numbers, and from 65520 on the operand rounds to
the infinity's rank. -/
theorem encodeIsNearestTiesToEven : Obligations.EncodeIsNearestTiesToEven := by
  intro p a ha
  have notNan := class32_ne_nan_of_isFinite ha
  have rounds := roundsTo_enc p notNan
  have top := rank16_enc_le p notNan
  rw [abs_real_value32_lt_iff ha, ← not_lt, abs_real_value32_lt_iff ha, not_lt]
  refine ⟨fun below => ?nearest, fun large => ?infinity⟩
  case nearest =>
    have finite := rounds.lt_infinity top below
    refine ⟨(isFinite_value16_iff _).mpr finite, fun h hh => ?_⟩
    rw [isFinite_value16_iff] at hh
    obtain ⟨le, even⟩ := rounds.nearest_signed finite (rank16 h) (sign32 a = 1#1) (sign16 h = 1#1)
    rw [real_value16 finite, real_value16 hh, real_value32 ha, sign16_enc, abs_grid_sub, abs_grid_sub,
      div_le_div_iff_of_pos_right (by positivity), div_left_inj' (by positivity), Int.cast_le, Int.cast_inj,
      Ne, div_left_inj' (by positivity), Int.cast_inj]
    exact ⟨le, fun tie ne => getLsbD_zero_mant16 (even tie ne)⟩
  case infinity =>
    have rank := rank16_enc_eq p notNan le_rfl (roundsTo_infinity large)
    rw [value16_enc p notNan, rank, gridValue_top]

/-! ### The error -/

/-- A result is within half a unit in the last place of the operand: the middles on its two sides are no
farther. -/
theorem RoundsTo.error_le {x r : Nat} (hx : RoundsTo x r) (hr : r < 0x7C00) :
    2 * |(halfGrid r : ℤ) - x| ≤ (2 ^ (r / 2 ^ 10 - 1 + 125) : ℕ) := by
  obtain ⟨above, -⟩ := hx.above hr
  have next := halfGrid_succ r
  rw [Int.abs_eq_natAbs]
  cases r with
  | zero =>
    have zero : halfGrid 0 = 0 := by decide
    omega
  | succ q =>
    obtain ⟨below, -⟩ := hx.below q rfl
    have previous := halfGrid_succ q
    have unit : 2 ^ (q / 2 ^ 10 - 1 + 125) ≤ 2 ^ ((q + 1) / 2 ^ 10 - 1 + 125) :=
      Nat.pow_le_pow_right (by decide) (by omega)
    omega

/-- The unit in the last place in units of `2^-149`. -/
theorem ulp16_eq (h : Half) : ulp16 h = (2 : ℚ) ^ (rank16 h / 2 ^ 10 - 1 + 125) / 2 ^ 149 := by
  rw [rank16_div, ulp16]
  by_cases he : exp16 h = 0#5
  · rw [if_pos he, he]
    norm_num
  · obtain ⟨e, hexp⟩ := Nat.exists_eq_add_of_le' (one_le_toNat_of_ne_zero he)
    have exponent : ((e + 1 : ℕ) : ℤ) - 25 = ((e + 125 : ℕ) : ℤ) - (149 : ℕ) := by omega
    rw [if_neg he, hexp, exponent, zpow_sub₀ two_ne_zero, zpow_natCast, zpow_natCast, Nat.add_sub_cancel]

/-- Settles O41: `DEC` is exact, so the error is that of the rounding. -/
theorem encodeErrorIsHalfUlp : Obligations.EncodeErrorIsHalfUlp := by
  intro p a ha below
  have notNan := class32_ne_nan_of_isFinite ha
  have rounds := roundsTo_enc p notNan
  have finite := rounds.lt_infinity (rank16_enc_le p notNan) ((abs_real_value32_lt_iff ha).mp below)
  have error := rounds.error_le finite
  rw [decodeIsExact p _ (class16_enc_ne_nan p notNan), real_value16 finite, real_value32 ha, sign16_enc,
    abs_grid_sub, abs_signedUnits_sub, ulp16_eq, div_right_comm, div_le_div_iff_of_pos_right (by positivity),
    le_div_iff₀' two_pos]
  exact_mod_cast error

end Sys2Proof.Machine
end
